-- ==== Sys2Proof/Word.lean ====
section
/-! DEFINITION. The word and byte types of the krypto AES core, and the four-word block
(spec/00_scope.md R6, R8; spec/10_state.md R20). -/

namespace Sys2Proof

/-- "Word: a 32-bit unit" (R6 `WORD_BITS`). Every value is unsigned (R8). -/
abbrev Word := BitVec 32

/-- An 8-bit byte (R6 `BYTE_BITS`). -/
abbrev Byte := BitVec 8

/-- A byte string: a finite sequence of bytes, index 0 first (R11). -/
abbrev Bytes := List Byte

/-- "Block: 4 words (128 bits)" (R6 `BLOCK_WORDS`): the transform unit of the AES engine and the shape
of the registers `IV[0..3]` and `CHAIN[0..3]` (R20). Field `w<i>` is the word of index `i`. -/
structure Block where
  w0 : Word
  w1 : Word
  w2 : Word
  w3 : Word
  deriving DecidableEq, Repr

/-- The block of four zero words. -/
def Block.zero : Block := ⟨0, 0, 0, 0⟩

/-- Word-by-word exclusive or of two blocks, which is byte by byte (R181). -/
def Block.xor (a b : Block) : Block := ⟨a.w0 ^^^ b.w0, a.w1 ^^^ b.w1, a.w2 ^^^ b.w2, a.w3 ^^^ b.w3⟩

end Sys2Proof
end

