-- ==== Sys2Proof/Config.lean ====
section
/-! DEFINITION. The implementation parameters of the core (spec/00_scope.md R6). Every one is fixed but
`BUS_BINDING`, on which no rule depends (R7): the model takes commands and responses as abstract
sequences and has no such parameter (log entry 14). The spec leaves no value free
(spec/93_implementation_defined.md, end of part 1), so this file declares no opaque constant. -/

namespace Sys2Proof.Config

/-- `BLOCK_WORDS` = 4. -/
def blockWords : Nat := 4

/-- `BLOCK_BYTES` = 16. -/
def blockBytes : Nat := 16

/-- `KS_CAP`: storage of one schedule, in words. -/
def ksCap : Nat := 60

/-- `LEN_MAX`: the most operand bytes one command carries. -/
def lenMax : Nat := 65535

/-- `DATA_CAP`: the most accumulator bytes held between commands. -/
def dataCap : Nat := 31

end Sys2Proof.Config
end

