-- ==== Sys2Proof/Syntax.lean ====
section
/-! DEFINITION. The ten commands of the KAES command set (spec/30_encoding.md R72), the transform
direction and the error codes they report (spec/60_exceptions.md R210). -/

namespace Sys2Proof

/-- The transform direction: `DIR = 0` is encrypt, `DIR = 1` decrypt (R30, R76). -/
inductive Direction where
  | enc
  | dec
  deriving DecidableEq, Repr

/-- The result codes of a command (R210). The codes 8 to 15 of the 4-bit field are never produced. -/
inductive ErrCode where
  /-- 0 `OK`: the command succeeded. -/
  | ok
  /-- 1 `ERR_ILLEGAL`: `OPC` in 0x0A..0xFF. -/
  | illegal
  /-- 2 `ERR_RSVD`: `RSV`, or a field the command does not use, is nonzero. -/
  | rsvd
  /-- 3 `ERR_KEYLEN`: `KL = 3`. -/
  | keylen
  /-- 4 `ERR_LENGTH`: `LEN` breaks the command's length rule. -/
  | length
  /-- 5 `ERR_NOKEY`: no key loaded, or no schedule expanded, since reset. -/
  | nokey
  /-- 6 `ERR_STATE`: `UPDATE` or `FINAL` in `OFF` or `FINAL`. -/
  | state
  /-- 7 `ERR_PARTIAL`: a decrypting `FINAL` of a stream that is not a whole number of blocks. -/
  | partialBlock
  deriving DecidableEq, Repr

/-- The 4-bit code of an error (R210). -/
def ErrCode.code : ErrCode → BitVec 4
  | .ok => 0
  | .illegal => 1
  | .rsvd => 2
  | .keylen => 3
  | .length => 4
  | .nokey => 5
  | .state => 6
  | .partialBlock => 7

/-- A command: the fields its opcode uses and its operand bytes (R70, R72). A field the command does not
use, and `RSV`, are 0 in every command the core executes (R73), so they are no part of it; a word in
which one of them is not 0 is rejected by the decoder. The operand is the whole operand of the pair
`(cmd, Operand)` whatever its length: a length that breaks the command's rule (R74), like `KL = 3` (R75),
is an error the command itself raises (log entry 9). -/
inductive Instr where
  /-- `STATUS` (0x00, R155). -/
  | status (operand : Bytes)
  /-- `LOAD_KEY` (0x01, R129) with the key length code `KL`. -/
  | loadKey (kl : BitVec 2) (operand : Bytes)
  /-- `LOAD_IV` (0x02, R184). -/
  | loadIv (operand : Bytes)
  /-- `INIT` (0x03, R152) with `DIR` and `IVP`. -/
  | init (dir : Direction) (ivp : Bool) (operand : Bytes)
  /-- `UPDATE` (0x04, R153). -/
  | update (operand : Bytes)
  /-- `FINAL` (0x05, R154). -/
  | final (operand : Bytes)
  /-- `ENC_BLOCK` (0x06, R130). -/
  | encBlock (operand : Bytes)
  /-- `DEC_BLOCK` (0x07, R131). -/
  | decBlock (operand : Bytes)
  /-- `PAD` (0x08, R200). -/
  | pad (operand : Bytes)
  /-- `UNPAD` (0x09, R201). -/
  | unpad (operand : Bytes)
  deriving DecidableEq, Repr

/-- The operand byte string of a command (R70). -/
def Instr.operand : Instr → Bytes
  | .status operand => operand
  | .loadKey _ operand => operand
  | .loadIv operand => operand
  | .init _ _ operand => operand
  | .update operand => operand
  | .final operand => operand
  | .encBlock operand => operand
  | .decBlock operand => operand
  | .pad operand => operand
  | .unpad operand => operand

/-- The mnemonic of a command (R72, spec/opcode_table.json). -/
def Instr.mnemonic : Instr → String
  | .status _ => "STATUS"
  | .loadKey _ _ => "LOAD_KEY"
  | .loadIv _ => "LOAD_IV"
  | .init _ _ _ => "INIT"
  | .update _ => "UPDATE"
  | .final _ => "FINAL"
  | .encBlock _ => "ENC_BLOCK"
  | .decBlock _ => "DEC_BLOCK"
  | .pad _ => "PAD"
  | .unpad _ => "UNPAD"

end Sys2Proof
end

