-- ==== Sys2Proof/WellFormed.lean ====
section
/-! DEFINITION. Well-formed commands: all the field rules of R72 to R75 met
(spec/30_encoding.md). -/

namespace Sys2Proof

/-- Whether a command meets its length rule (R74) and, for `LOAD_KEY`, its key-length rule (R75). A
well-formed command raises none of the errors that depend on the command word alone (R212 steps 1 to 4). -/
def Instr.wf : Instr → Bool
  | .status operand => operand.length == 0
  | .loadKey kl operand => kl != 3 && operand.length == 16 + 8 * kl.toNat
  | .loadIv operand => operand.length == 16
  | .init _ _ operand => operand.length == 0
  | .update operand => operand.length ≤ Config.lenMax
  | .final operand => operand.length ≤ Config.lenMax
  | .encBlock operand => operand.length == 16
  | .decBlock operand => operand.length == 16
  | .pad operand => operand.length ≤ Config.lenMax
  | .unpad operand => operand.length ≤ Config.lenMax

/-- Whether the operand fits on the channel, `LEN` being a 16-bit field (R70, R74). -/
def Instr.sendable (i : Instr) : Bool := i.operand.length ≤ Config.lenMax

end Sys2Proof
end

