-- ==== Sys2Proof/Decode.lean ====
section
/-! DEFINITION. Decoding and encoding of commands (spec/30_encoding.md R70 to R78;
spec/20_memory.md R63; spec/60_exceptions.md R212). -/

namespace Sys2Proof

/-- `OPC = cmd[7:0]` (R71). -/
def opcField (cmd : Word) : Nat := (cmd.extractLsb' 0 8).toNat

/-- `DIR = cmd[8]` (R71). -/
def dirField (cmd : Word) : Bool := cmd.getLsbD 8

/-- `IVP = cmd[9]` (R71). -/
def ivpField (cmd : Word) : Bool := cmd.getLsbD 9

/-- `KL = cmd[11:10]` (R71). -/
def klField (cmd : Word) : BitVec 2 := cmd.extractLsb' 10 2

/-- `RSV = cmd[15:12]` (R71). -/
def rsvField (cmd : Word) : BitVec 4 := cmd.extractLsb' 12 4

/-- `LEN = zext_32(cmd[31:16])` (R71), as a number. -/
def lenField (cmd : Word) : Nat := (cmd.extractLsb' 16 16).toNat

/-- `DIR` decode (R76). -/
def directionOf (bit : Bool) : Direction := if bit then .dec else .enc

/-- What the decoder makes of a command word and the bytes that came with it. -/
inductive Decoded where
  /-- One of the ten commands, its unused and reserved fields 0. -/
  | command (i : Instr)
  /-- A command word that raises an error before any command is selected: `ERR_ILLEGAL` or `ERR_RSVD`
  (R73, R77). -/
  | raises (code : ErrCode)
  /-- The operand does not have `LEN` bytes: "not a command the core receives" (R63). -/
  | notACommand
  deriving DecidableEq, Repr

/-- Whether `RSV`, `KL`, `IVP` and `DIR` are all 0: the field rule of every command but `LOAD_KEY` and
`INIT` (R73). -/
def noFields (cmd : Word) : Bool :=
  rsvField cmd == 0 && klField cmd == 0 && !ivpField cmd && !dirField cmd

/-- The field rule of `LOAD_KEY`: every field but `KL` is 0 (R73). -/
def onlyKl (cmd : Word) : Bool := rsvField cmd == 0 && !ivpField cmd && !dirField cmd

/-- The field rule of `INIT`: every field but `DIR` and `IVP` is 0 (R73). -/
def onlyDirIvp (cmd : Word) : Bool := rsvField cmd == 0 && klField cmd == 0

/-- The command `i` where its unused and reserved fields are 0, `ERR_RSVD` otherwise (R73). -/
def ifUnusedZero (fieldsOk : Bool) (i : Instr) : Decoded :=
  if fieldsOk then .command i else .raises .rsvd

/-- The command an opcode selects, the opcode being looked at before any other field (R72, R77, R212
steps 1 and 2). -/
def decodeWord (cmd : Word) (operand : Bytes) : Decoded :=
  match opcField cmd with
  | 0x00 => ifUnusedZero (noFields cmd) (.status operand)
  | 0x01 => ifUnusedZero (onlyKl cmd) (.loadKey (klField cmd) operand)
  | 0x02 => ifUnusedZero (noFields cmd) (.loadIv operand)
  | 0x03 => ifUnusedZero (onlyDirIvp cmd) (.init (directionOf (dirField cmd)) (ivpField cmd) operand)
  | 0x04 => ifUnusedZero (noFields cmd) (.update operand)
  | 0x05 => ifUnusedZero (noFields cmd) (.final operand)
  | 0x06 => ifUnusedZero (noFields cmd) (.encBlock operand)
  | 0x07 => ifUnusedZero (noFields cmd) (.decBlock operand)
  | 0x08 => ifUnusedZero (noFields cmd) (.pad operand)
  | 0x09 => ifUnusedZero (noFields cmd) (.unpad operand)
  | _ => .raises .illegal

/-- The decoder, total on every 32-bit word and every byte string (R63, R78). -/
def decode (cmd : Word) (operand : Bytes) : Decoded :=
  if operand.length = lenField cmd then decodeWord cmd operand else .notACommand

/-- The command word with the given fields, laid out as R71 draws it:
`LEN[31:16] RSV[15:12] KL[11:10] IVP[9] DIR[8] OPC[7:0]`, with `RSV = 0`. -/
def commandWord (len : Nat) (kl : BitVec 2) (ivp dir : Bool) (opc : BitVec 8) : Word :=
  BitVec.ofNat 16 len ++ 0#4 ++ kl ++ BitVec.ofBool ivp ++ BitVec.ofBool dir ++ opc

/-- `DIR` encode (R76). -/
def directionBit : Direction → Bool
  | .enc => false
  | .dec => true

/-- The command word of a command (R71, R72, R80). -/
def encodeWord : Instr → Word
  | .status operand => commandWord operand.length 0 false false 0x00
  | .loadKey kl operand => commandWord operand.length kl false false 0x01
  | .loadIv operand => commandWord operand.length 0 false false 0x02
  | .init dir ivp operand => commandWord operand.length 0 ivp (directionBit dir) 0x03
  | .update operand => commandWord operand.length 0 false false 0x04
  | .final operand => commandWord operand.length 0 false false 0x05
  | .encBlock operand => commandWord operand.length 0 false false 0x06
  | .decBlock operand => commandWord operand.length 0 false false 0x07
  | .pad operand => commandWord operand.length 0 false false 0x08
  | .unpad operand => commandWord operand.length 0 false false 0x09

/-- The pair `(cmd, Operand)` the host sends for a command (R70). -/
def encode (i : Instr) : Word × Bytes := (encodeWord i, i.operand)

/-- A row of spec/opcode_table.json: a command word is the row's command when its bits under `mask` are
`pattern`. -/
structure TableRow where
  mnemonic : String
  pattern : Word
  mask : Word
  deriving DecidableEq, Repr

/-- Whether a command word matches a row. -/
def TableRow.matches (r : TableRow) (cmd : Word) : Bool := cmd &&& r.mask == r.pattern

/-- The ten rows of spec/opcode_table.json, in its order. -/
def opcodeTable : List TableRow :=
  [⟨"STATUS", 0x00000000, 0xFFFFFFFF⟩,
   ⟨"LOAD_KEY", 0x00000001, 0x0000F3FF⟩,
   ⟨"LOAD_IV", 0x00100002, 0xFFFFFFFF⟩,
   ⟨"INIT", 0x00000003, 0xFFFFFCFF⟩,
   ⟨"UPDATE", 0x00000004, 0x0000FFFF⟩,
   ⟨"FINAL", 0x00000005, 0x0000FFFF⟩,
   ⟨"ENC_BLOCK", 0x00100006, 0xFFFFFFFF⟩,
   ⟨"DEC_BLOCK", 0x00100007, 0xFFFFFFFF⟩,
   ⟨"PAD", 0x00000008, 0x0000FFFF⟩,
   ⟨"UNPAD", 0x00000009, 0x0000FFFF⟩]

/-- The lowest `n` bytes of a number, the least significant first. -/
def lowBytes : Nat → Nat → Bytes
  | 0, _ => []
  | n + 1, v => BitVec.ofNat 8 v :: lowBytes n (v / 256)

/-- The command word of a table instruction of `nbits` bits `w`: its lowest 32 bits. -/
def tableCommand (nbits w : Nat) : Word := BitVec.ofNat 32 (w % 2 ^ nbits)

/-- The operand of a table instruction: `LEN` bytes, byte `k` being bits `32 + 8k` and up (zero above
`nbits`; log entry 6). -/
def tableOperand (nbits w : Nat) : Bytes :=
  lowBytes (lenField (tableCommand nbits w)) (w % 2 ^ nbits / 2 ^ 32)

/-- The instruction the decoder reads from a table instruction. -/
def decodeTableWord (nbits w : Nat) : Option Instr :=
  match decode (tableCommand nbits w) (tableOperand nbits w) with
  | .command i => some i
  | _ => none

end Sys2Proof
end

