-- ==== Sys2Proof/Machine/State.lean ====
section
/-! DEFINITION. The architectural state of the krypto AES core (spec/10_state.md R20 to R43), the host's
side of the command channel, the state after reset, and the reasons a step can stop. -/

namespace Sys2Proof.Machine

/-- The loaded key length `KEY_NK`, a value in 0, 4, 6, 8 words (R22). -/
inductive KeyLength where
  /-- No key loaded since reset. -/
  | none
  /-- 4 words, a 128-bit key. -/
  | k128
  /-- 6 words, a 192-bit key. -/
  | k192
  /-- 8 words, a 256-bit key. -/
  | k256
  deriving DecidableEq, Repr

/-- The number of rounds `NR` of the expanded schedule, a value in 0, 10, 12, 14 (R26). -/
inductive Rounds where
  /-- No schedule expanded since reset. -/
  | none
  | r10
  | r12
  | r14
  deriving DecidableEq, Repr

/-- The cipher-instance state machine `STATE` (R34). -/
inductive CipherState where
  /-- `OFF` = 0: no `INIT` since reset. -/
  | off
  /-- `IDLE` = 1. -/
  | idle
  /-- `ACCUM` = 2. -/
  | accum
  /-- `FINAL` = 3. -/
  | final
  deriving DecidableEq, Repr

/-- One response of the core: the status word and the emitted bytes (R79). -/
structure Response where
  status : Word
  out : Bytes
  deriving DecidableEq, Repr

/-- What the platform presents to the core: a transfer on the command channel, being a command word and
the operand bytes that came with it (R70), or the reset event (R240). -/
inductive HostInput where
  | command (cmd : Word) (operand : Bytes)
  | reset
  deriving DecidableEq, Repr

/-- The state. Every field down to `ufl` is an element of R20; the ROMs of R20 are constants
(Sys2Proof/Machine/Tables.lean, R42). `inputs` and `responses` are the model's own: the command stream
still to be received, oldest first, and the response stream already sent, oldest first (R7, R42; log
entries 1 and 2). -/
structure State where
  /-- `KEY[0..7]` (R21). -/
  key : Vector Word 8
  /-- `KEY_NK` (R22). -/
  keyNk : KeyLength
  /-- `KEY_DIRTY` (R23). -/
  keyDirty : Bool
  /-- `KS[0..59]` (R24). -/
  ks : Vector Word 60
  /-- `IKS[0..59]` (R25). -/
  iks : Vector Word 60
  /-- `NR` (R26). -/
  nr : Rounds
  /-- `KS_VALID` (R27). -/
  ksValid : Bool
  /-- `IV[0..3]` (R28). -/
  iv : Block
  /-- `CHAIN[0..3]` (R29). -/
  chain : Block
  /-- `DIR` (R30). -/
  dir : Direction
  /-- `DATA`, the accumulator (R32). -/
  data : Bytes
  /-- `STATE` (R34). -/
  state : CipherState
  /-- `ERR` (R35). -/
  err : ErrCode
  /-- `STICKY` (R36). -/
  sticky : Bool
  /-- `UFL` (R37). -/
  ufl : Bool
  /-- The inputs the core has not received yet, the next one first (model's own). -/
  inputs : List HostInput
  /-- The responses the core has sent, the first one first (model's own). -/
  responses : List Response
  deriving DecidableEq, Repr

/-- The machine right after reset: every element at its value in R41; nothing to receive and nothing sent
(log entry 19). -/
def State.reset : State where
  key := Vector.replicate 8 0
  keyNk := .none
  keyDirty := false
  ks := Vector.replicate 60 0
  iks := Vector.replicate 60 0
  nr := .none
  ksValid := false
  iv := Block.zero
  chain := Block.zero
  dir := .enc
  data := []
  state := .off
  err := .ok
  sticky := false
  ufl := false
  inputs := []
  responses := []

/-- The faults of the machine: there is none. "Error codes are defined results of the step, not faults"
(R222), so nothing raises one and the type has no constructor (log entry 8). -/
inductive Fault where
  deriving DecidableEq, Repr

/-- The reasons the model has no step for an input. -/
inductive Refusal where
  /-- An instruction without a meaning yet, by its mnemonic. Raised only by an arm of `exec` that has no
  meaning; there is none. Safe. -/
  | notModelled (mnemonic : String)
  /-- A transfer whose operand does not have `LEN` bytes: "the model has no step for it" (R63, R222).
  Raised by `step` before anything is decoded. Safe. -/
  | operandLength
  deriving DecidableEq, Repr

/-- `KEY_NK` as a number of words (R22). -/
def KeyLength.words : KeyLength → Nat
  | .none => 0
  | .k128 => 4
  | .k192 => 6
  | .k256 => 8

/-- `NR` as a number (R26). -/
def Rounds.count : Rounds → Nat
  | .none => 0
  | .r10 => 10
  | .r12 => 12
  | .r14 => 14

end Sys2Proof.Machine
end

