-- ==== Sys2Proof/Machine/Flags.lean ====
section
/-! DEFINITION. The status word and the codes it is made of (spec/10_state.md R22, R34, R35, R38). These
are the core's only flags (R40). -/

namespace Sys2Proof.Machine

/-- The 2-bit code `NKC` of `KEY_NK` (R22). -/
def nkCode : KeyLength → BitVec 2
  | .none => 0
  | .k128 => 1
  | .k192 => 2
  | .k256 => 3

/-- The 2-bit encoding of `STATE` (R34). -/
def stateCode : CipherState → BitVec 2
  | .off => 0
  | .idle => 1
  | .accum => 2
  | .final => 3

/-- `DIR` as a bit (R30). -/
def dirCode : Direction → BitVec 1
  | .enc => 0
  | .dec => 1

/-- A one-bit element in bit `n` of a word. -/
def bitAt (b : Bool) (n : Nat) : Word := (BitVec.ofBool b).setWidth 32 <<< n

/-- The status word (R38):
`zext_32(STATE) | (DIR << 2) | (KS_VALID << 3) | (KEY_DIRTY << 4) | (NKC << 5) | (UFL << 7) | (ERR << 8)
| (STICKY << 12) | (|DATA| << 16)`. -/
def statusWord (s : State) : Word :=
  (stateCode s.state).setWidth 32 ||| ((dirCode s.dir).setWidth 32 <<< 2) ||| bitAt s.ksValid 3 |||
    bitAt s.keyDirty 4 ||| ((nkCode s.keyNk).setWidth 32 <<< 5) ||| bitAt s.ufl 7 |||
    (s.err.code.setWidth 32 <<< 8) ||| bitAt s.sticky 12 ||| (BitVec.ofNat 32 s.data.length <<< 16)

end Sys2Proof.Machine
end

