-- ==== Sys2Proof/Machine/Bytes.lean ====
section
/-! DEFINITION. Bytes within a word, packing and unpacking, and rotations (spec/00_scope.md R9, R10;
spec/20_memory.md R51 to R53). Byte order is fixed big-endian. -/

namespace Sys2Proof.Machine

/-- `byte(v, k) = v[31-8k : 24-8k]` for `k` in 0..3: byte 0 is the most significant (R9). -/
def byteOf (v : Word) (k : Nat) : Byte := (v >>> (24 - 8 * k)).setWidth 8

/-- `word(b0, b1, b2, b3) = (b0 << 24) | (b1 << 16) | (b2 << 8) | b3` (R9). -/
def wordOf (b0 b1 b2 b3 : Byte) : Word :=
  (b0.setWidth 32 <<< 24) ||| (b1.setWidth 32 <<< 16) ||| (b2.setWidth 32 <<< 8) ||| b3.setWidth 32

/-- `pack(s)`: each group of four bytes is one word, the first byte the most significant (R51). Every use
is on a string of 16, 24 or 32 bytes; a last group of fewer than four bytes would be dropped. -/
def pack : Bytes → List Word
  | b0 :: b1 :: b2 :: b3 :: rest => wordOf b0 b1 b2 b3 :: pack rest
  | _ => []

/-- The four bytes of a word in order, byte 0 first (R52). -/
def wordBytes (v : Word) : Bytes := [byteOf v 0, byteOf v 1, byteOf v 2, byteOf v 3]

/-- `unpack(ws)`: the bytes of each word in order (R52). -/
def unpack : List Word → Bytes
  | [] => []
  | w :: ws => wordBytes w ++ unpack ws

/-- The first four words of a word sequence as a block. -/
def blockOfWords (ws : List Word) : Block := ⟨ws.getD 0 0, ws.getD 1 0, ws.getD 2 0, ws.getD 3 0⟩

/-- The four words of a block in order. -/
def blockWords (b : Block) : List Word := [b.w0, b.w1, b.w2, b.w3]

/-- `pack` of a 16-byte string, as a block. -/
def packBlock (s : Bytes) : Block := blockOfWords (pack s)

/-- `unpack` of a block: its 16 bytes. -/
def unpackBlock (b : Block) : Bytes := unpack (blockWords b)

end Sys2Proof.Machine
end

