-- ==== Sys2Proof/Machine/Field.lean ====
section
/-! DEFINITION. Arithmetic in GF(2^8) (spec/40_aes_tables.md R100 to R102, R108; notation of
spec/00_scope.md R13). The machine's datapath reads only the ROMs; these operations are what the ROM
contents are defined by. -/

namespace Sys2Proof.Machine

/-- `xtime(b)`: multiplication by `x`, that is `b << 1` for `b < 128` and `(b << 1) ^ 0x11B` otherwise,
an 8-bit value (R100). -/
def xtime (b : Byte) : Byte :=
  if b.toNat < 128 then b <<< 1
  else (((b.setWidth 9) <<< 1) ^^^ 0x11B#9).setWidth 8

/-- The loop of R101: `n` more bits of `b` to look at, `b` shifted so that the next is bit 0. -/
def gmulLoop : Nat → Byte → Byte → Byte → Byte
  | 0, _, _, r => r
  | n + 1, p, b, r => gmulLoop n (xtime p) (b >>> 1) (if b.getLsbD 0 then r ^^^ p else r)

/-- `gmul(a, b)`: the product in GF(2^8) (R101). -/
def gmul (a b : Byte) : Byte := gmulLoop 8 a b 0

/-- `ginv(b)`: the multiplicative inverse, with `ginv(0) = 0` (R102). It is computed as `b` to the power
254 by squarings and products, since the 255 nonzero elements form a group (log entry 13). -/
def ginv (b : Byte) : Byte :=
  let b2 := gmul b b
  let b3 := gmul b2 b
  let b6 := gmul b3 b3
  let b12 := gmul b6 b6
  let b15 := gmul b12 b3
  let b30 := gmul b15 b15
  let b60 := gmul b30 b30
  let b63 := gmul b60 b3
  let b126 := gmul b63 b63
  let b127 := gmul b126 b
  gmul b127 b127

/-- `rotl8(b, n)` (R10). -/
def rotl8 (b : Byte) (n : Nat) : Byte := b.rotateLeft n

/-- R103's formula for `SBOX[x]`: a 12-bit intermediate, bits 11:8 folded onto bits 3:0, and the affine
constant `0x63`. -/
def sboxFormula (x : Byte) : Byte :=
  let xi := (ginv x).setWidth 12
  let sx := xi ^^^ (xi <<< 1) ^^^ (xi <<< 2) ^^^ (xi <<< 3) ^^^ (xi <<< 4)
  ((sx >>> 8).setWidth 8) ^^^ (sx.setWidth 8) ^^^ 0x63

/-- One update of the two counters of KRYPTO's table walk (R108, informative): from `x = 0` to
`x = xi = 1`, otherwise `x <- x2 ^ d[d[d[x8 ^ x2]]]` and `xi <- xi ^ d[d[xi]]`. -/
def walkNext (c : Byte × Byte) : Byte × Byte :=
  if c.1 = 0 then (1, 1)
  else
    let x2 := xtime c.1
    let x8 := xtime (xtime x2)
    (x2 ^^^ xtime (xtime (xtime (x8 ^^^ x2))), c.2 ^^^ xtime (xtime c.2))

/-- The first `n` counter pairs of the walk from `(x, xi)` (R108). -/
def walk : Nat → Byte × Byte → List (Byte × Byte)
  | 0, _ => []
  | n + 1, c => c :: walk n (walkNext c)

end Sys2Proof.Machine
end

