-- ==== Sys2Proof/Machine/Tables.lean ====
section
/-! DEFINITION. The constant ROMs of the core (spec/40_aes_tables.md R103 to R107 and its section 4;
spec/10_state.md R39) and the round constants (spec/41_aes_engine.md R121). The contents are the
listings of section 4, row by row; Sys2Proof/Laws/Tables.lean relates them to the formulas of
R103 to R106. -/

namespace Sys2Proof.Machine

/-- The rows of section 4.1: row `R` holds `SBOX[0xR0]` to `SBOX[0xRF]`, the first entry in the most
significant byte. -/
def sboxRows : List (BitVec 128) :=
  [0x637c777bf26b6fc53001672bfed7ab76,
   0xca82c97dfa5947f0add4a2af9ca472c0,
   0xb7fd9326363ff7cc34a5e5f171d83115,
   0x04c723c31896059a071280e2eb27b275,
   0x09832c1a1b6e5aa0523bd6b329e32f84,
   0x53d100ed20fcb15b6acbbe394a4c58cf,
   0xd0efaafb434d338545f9027f503c9fa8,
   0x51a3408f929d38f5bcb6da2110fff3d2] ++
  [0xcd0c13ec5f974417c4a77e3d645d1973,
   0x60814fdc222a908846eeb814de5e0bdb,
   0xe0323a0a4906245cc2d3ac629195e479,
   0xe7c8376d8dd54ea96c56f4ea657aae08,
   0xba78252e1ca6b4c6e8dd741f4bbd8b8a,
   0x703eb5664803f60e613557b986c11d9e,
   0xe1f8981169d98e949b1e87e9ce5528df,
   0x8ca1890dbfe6426841992d0fb054bb16]

/-- The rows of section 4.2 (`INVSBOX`), laid out as `sboxRows`. -/
def invSboxRows : List (BitVec 128) :=
  [0x52096ad53036a538bf40a39e81f3d7fb,
   0x7ce339829b2fff87348e4344c4dee9cb,
   0x547b9432a6c2233dee4c950b42fac34e,
   0x082ea16628d924b2765ba2496d8bd125,
   0x72f8f66486689816d4a45ccc5d65b692,
   0x6c704850fdedb9da5e154657a78d9d84,
   0x90d8ab008cbcd30af7e45805b8b34506,
   0xd02c1e8fca3f0f02c1afbd0301138a6b] ++
  [0x3a9111414f67dcea97f2cfcef0b4e673,
   0x96ac7422e7ad3585e2f937e81c75df6e,
   0x47f11a711d29c5896fb7620eaa18be1b,
   0xfc563e4bc6d279209adbc0fe78cd5af4,
   0x1fdda8338807c731b11210592780ec5f,
   0x60517fa919b54a0d2de57a9f93c99cef,
   0xa0e03b4dae2af5b0c8ebbb3c83539961,
   0x172b047eba77d626e169146355210c7d]

/-- The rows of section 4.3: row `0xNN` holds `SUBMIX0[0xNN + 0]` to `SUBMIX0[0xNN + 7]`, the first entry
in the most significant word. -/
def subMix0Rows : List (BitVec 256) :=
  [0xc66363a5_f87c7c84_ee777799_f67b7b8d_fff2f20d_d66b6bbd_de6f6fb1_91c5c554,
   0x60303050_02010103_ce6767a9_562b2b7d_e7fefe19_b5d7d762_4dababe6_ec76769a,
   0x8fcaca45_1f82829d_89c9c940_fa7d7d87_effafa15_b25959eb_8e4747c9_fbf0f00b,
   0x41adadec_b3d4d467_5fa2a2fd_45afafea_239c9cbf_53a4a4f7_e4727296_9bc0c05b,
   0x75b7b7c2_e1fdfd1c_3d9393ae_4c26266a_6c36365a_7e3f3f41_f5f7f702_83cccc4f,
   0x6834345c_51a5a5f4_d1e5e534_f9f1f108_e2717193_abd8d873_62313153_2a15153f,
   0x0804040c_95c7c752_46232365_9dc3c35e_30181828_379696a1_0a05050f_2f9a9ab5,
   0x0e070709_24121236_1b80809b_dfe2e23d_cdebeb26_4e272769_7fb2b2cd_ea75759f] ++
  [0x1209091b_1d83839e_582c2c74_341a1a2e_361b1b2d_dc6e6eb2_b45a5aee_5ba0a0fb,
   0xa45252f6_763b3b4d_b7d6d661_7db3b3ce_5229297b_dde3e33e_5e2f2f71_13848497,
   0xa65353f5_b9d1d168_00000000_c1eded2c_40202060_e3fcfc1f_79b1b1c8_b65b5bed,
   0xd46a6abe_8dcbcb46_67bebed9_7239394b_944a4ade_984c4cd4_b05858e8_85cfcf4a,
   0xbbd0d06b_c5efef2a_4faaaae5_edfbfb16_864343c5_9a4d4dd7_66333355_11858594,
   0x8a4545cf_e9f9f910_04020206_fe7f7f81_a05050f0_783c3c44_259f9fba_4ba8a8e3,
   0xa25151f3_5da3a3fe_804040c0_058f8f8a_3f9292ad_219d9dbc_70383848_f1f5f504,
   0x63bcbcdf_77b6b6c1_afdada75_42212163_20101030_e5ffff1a_fdf3f30e_bfd2d26d] ++
  [0x81cdcd4c_180c0c14_26131335_c3ecec2f_be5f5fe1_359797a2_884444cc_2e171739,
   0x93c4c457_55a7a7f2_fc7e7e82_7a3d3d47_c86464ac_ba5d5de7_3219192b_e6737395,
   0xc06060a0_19818198_9e4f4fd1_a3dcdc7f_44222266_542a2a7e_3b9090ab_0b888883,
   0x8c4646ca_c7eeee29_6bb8b8d3_2814143c_a7dede79_bc5e5ee2_160b0b1d_addbdb76,
   0xdbe0e03b_64323256_743a3a4e_140a0a1e_924949db_0c06060a_4824246c_b85c5ce4,
   0x9fc2c25d_bdd3d36e_43acacef_c46262a6_399191a8_319595a4_d3e4e437_f279798b,
   0xd5e7e732_8bc8c843_6e373759_da6d6db7_018d8d8c_b1d5d564_9c4e4ed2_49a9a9e0,
   0xd86c6cb4_ac5656fa_f3f4f407_cfeaea25_ca6565af_f47a7a8e_47aeaee9_10080818] ++
  [0x6fbabad5_f0787888_4a25256f_5c2e2e72_381c1c24_57a6a6f1_73b4b4c7_97c6c651,
   0xcbe8e823_a1dddd7c_e874749c_3e1f1f21_964b4bdd_61bdbddc_0d8b8b86_0f8a8a85,
   0xe0707090_7c3e3e42_71b5b5c4_cc6666aa_904848d8_06030305_f7f6f601_1c0e0e12,
   0xc26161a3_6a35355f_ae5757f9_69b9b9d0_17868691_99c1c158_3a1d1d27_279e9eb9,
   0xd9e1e138_ebf8f813_2b9898b3_22111133_d26969bb_a9d9d970_078e8e89_339494a7,
   0x2d9b9bb6_3c1e1e22_15878792_c9e9e920_87cece49_aa5555ff_50282878_a5dfdf7a,
   0x038c8c8f_59a1a1f8_09898980_1a0d0d17_65bfbfda_d7e6e631_844242c6_d06868b8,
   0x824141c3_299999b0_5a2d2d77_1e0f0f11_7bb0b0cb_a85454fc_6dbbbbd6_2c16163a]

/-- The rows of section 4.4 (`INVSUBMIX0`), laid out as `subMix0Rows`. -/
def invSubMix0Rows : List (BitVec 256) :=
  [0x51f4a750_7e416553_1a17a4c3_3a275e96_3bab6bcb_1f9d45f1_acfa58ab_4be30393,
   0x2030fa55_ad766df6_88cc7691_f5024c25_4fe5d7fc_c52acbd7_26354480_b562a38f,
   0xdeb15a49_25ba1b67_45ea0e98_5dfec0e1_c32f7502_814cf012_8d4697a3_6bd3f9c6,
   0x038f5fe7_15929c95_bf6d7aeb_955259da_d4be832d_587421d3_49e06929_8ec9c844,
   0x75c2896a_f48e7978_99583e6b_27b971dd_bee14fb6_f088ad17_c920ac66_7dce3ab4,
   0x63df4a18_e51a3182_97513360_62537f45_b16477e0_bb6bae84_fe81a01c_f9082b94,
   0x70486858_8f45fd19_94de6c87_527bf8b7_ab73d323_724b02e2_e31f8f57_6655ab2a,
   0xb2eb2807_2fb5c203_86c57b9a_d33708a5_302887f2_23bfa5b2_02036aba_ed16825c] ++
  [0x8acf1c2b_a779b492_f307f2f0_4e69e2a1_65daf4cd_0605bed5_d134621f_c4a6fe8a,
   0x342e539d_a2f355a0_058ae132_a4f6eb75_0b83ec39_4060efaa_5e719f06_bd6e1051,
   0x3e218af9_96dd063d_dd3e05ae_4de6bd46_91548db5_71c45d05_0406d46f_605015ff,
   0x1998fb24_d6bde997_894043cc_67d99e77_b0e842bd_07898b88_e7195b38_79c8eedb,
   0xa17c0a47_7c420fe9_f8841ec9_00000000_09808683_322bed48_1e1170ac_6c5a724e,
   0xfd0efffb_0f853856_3daed51e_362d3927_0a0fd964_685ca621_9b5b54d1_24362e3a,
   0x0c0a67b1_9357e70f_b4ee96d2_1b9b919e_80c0c54f_61dc20a2_5a774b69_1c121a16,
   0xe293ba0a_c0a02ae5_3c22e043_121b171d_0e090d0b_f28bc7ad_2db6a8b9_141ea9c8] ++
  [0x57f11985_af75074c_ee99ddbb_a37f60fd_f701269f_5c72f5bc_44663bc5_5bfb7e34,
   0x8b432976_cb23c6dc_b6edfc68_b8e4f163_d731dcca_42638510_13972240_84c61120,
   0x854a247d_d2bb3df8_aef93211_c729a16d_1d9e2f4b_dcb230f3_0d8652ec_77c1e3d0,
   0x2bb3166c_a970b999_119448fa_47e96422_a8fc8cc4_a0f03f1a_567d2cd8_223390ef,
   0x87494ec7_d938d1c1_8ccaa2fe_98d40b36_a6f581cf_a57ade28_dab78e26_3fadbfa4,
   0x2c3a9de4_5078920d_6a5fcc9b_547e4662_f68d13c2_90d8b8e8_2e39f75e_82c3aff5,
   0x9f5d80be_69d0937c_6fd52da9_cf2512b3_c8ac993b_10187da7_e89c636e_db3bbb7b,
   0xcd267809_6e5918f4_ec9ab701_834f9aa8_e6956e65_aaffe67e_21bccf08_ef15e8e6] ++
  [0xbae79bd9_4a6f36ce_ea9f09d4_29b07cd6_31a4b2af_2a3f2331_c6a59430_35a266c0,
   0x744ebc37_fc82caa6_e090d0b0_33a7d815_f104984a_41ecdaf7_7fcd500e_1791f62f,
   0x764dd68d_43efb04d_ccaa4d54_e49604df_9ed1b5e3_4c6a881b_c12c1fb8_4665517f,
   0x9d5eea04_018c355d_fa877473_fb0b412e_b3671d5a_92dbd252_e9105633_6dd64713,
   0x9ad7618c_37a10c7a_59f8148e_eb133c89_cea927ee_b761c935_e11ce5ed_7a47b13c,
   0x9cd2df59_55f2733f_1814ce79_73c737bf_53f7cdea_5ffdaa5b_df3d6f14_7844db86,
   0xcaaff381_b968c43e_3824342c_c2a3405f_161dc372_bce2250c_283c498b_ff0d9541,
   0x39a80171_080cb3de_d8b4e49c_6456c190_7bcb8461_d532b670_486c5c74_d0b85742]

/-- Entry `x` of an 8-bit ROM given as 16 rows of 16 entries. -/
def rom8 (rows : List (BitVec 128)) (x : Byte) : Byte :=
  ((rows.getD (x.toNat / 16) 0) >>> (8 * (15 - x.toNat % 16))).setWidth 8

/-- Entry `x` of a 32-bit ROM given as 32 rows of 8 entries. -/
def rom32 (rows : List (BitVec 256)) (x : Byte) : Word :=
  ((rows.getD (x.toNat / 8) 0) >>> (32 * (7 - x.toNat % 8))).setWidth 32

/-- ROM `SBOX` (R103). -/
def sbox (x : Byte) : Byte := rom8 sboxRows x

/-- ROM `INVSBOX` (R104). -/
def invSbox (x : Byte) : Byte := rom8 invSboxRows x

/-- ROM `SUBMIXk`, `k` in 0..3: `SUBMIXk[x] = rotr32(SUBMIX0[x], 8k)` (R105). -/
def subMix (k : Nat) (x : Byte) : Word := (rom32 subMix0Rows x).rotateRight (8 * k)

/-- ROM `INVSUBMIXk`, `k` in 0..3: `INVSUBMIXk[y] = rotr32(INVSUBMIX0[y], 8k)` (R106). -/
def invSubMix (k : Nat) (y : Byte) : Word := (rom32 invSubMix0Rows y).rotateRight (8 * k)

/-- The round-constant table `RCON[0..10]` (R121); entry 0 is never read by the key expansion (R120). -/
def rconTable : List Byte := [0x00, 0x01, 0x02, 0x04, 0x08, 0x10, 0x20, 0x40, 0x80, 0x1b, 0x36]

/-- `RCON[i]` for `i` in 0..10 (R121). -/
def rcon (i : Nat) : Byte := rconTable.getD i 0

end Sys2Proof.Machine
end

