-- ==== Sys2Proof/Machine/Engine.lean ====
section
/-! DEFINITION. The AES engine: forward and inverse key schedule and the block transform
(spec/41_aes_engine.md R120 to R127), as functions of the key words, the schedule and the round
number. -/

namespace Sys2Proof.Machine

/-- `RotWord(t) = rotl32(t, 8)` (R122). -/
def rotWord (t : Word) : Word := t.rotateLeft 8

/-- `SubWord(t)`: `SBOX` on each byte (R122). -/
def subWord (t : Word) : Word :=
  wordOf (sbox (byteOf t 0)) (sbox (byteOf t 1)) (sbox (byteOf t 2)) (sbox (byteOf t 3))

/-- The body of R120's loop: schedule word `i` from the key words and the words `w[0 .. i-1]`. -/
def nextWord (key : List Word) (nk : Nat) (w : List Word) (i : Nat) : Word :=
  if i < nk then key.getD i 0
  else
    let t := w.getD (i - 1) 0
    let t :=
      if i % nk = 0 then subWord (rotWord t) ^^^ ((rcon (i / nk)).setWidth 32 <<< 24)
      else if nk > 6 ∧ i % nk = 4 then subWord t
      else t
    w.getD (i - nk) 0 ^^^ t

/-- The schedule words `w[0 .. n-1]` of R120, in the loop's order. -/
def expandWords (key : List Word) (nk : Nat) : Nat → List Word
  | 0 => []
  | n + 1 =>
    let w := expandWords key nk n
    w ++ [nextWord key nk w n]

/-- `InvMixWord(t)` (R124). -/
def invMixWord (t : Word) : Word :=
  invSubMix 0 (sbox (byteOf t 0)) ^^^ invSubMix 1 (sbox (byteOf t 1)) ^^^
    invSubMix 2 (sbox (byteOf t 2)) ^^^ invSubMix 3 (sbox (byteOf t 3))

/-- Word `p(j)` of inverse round `r`: copied in rounds 0 and `NR`, passed through `InvMixWord` in between
(R123). -/
def invRoundWord (w : List Word) (nr r pj : Nat) : Word :=
  let v := w.getD (4 * (nr - r) + pj) 0
  if r = 0 ∨ r = nr then v else invMixWord v

/-- The four words of inverse round `r`, in the word order `p = (0, 3, 2, 1)` (R123). -/
def invRound (w : List Word) (nr r : Nat) : List Word := [0, 3, 2, 1].map (invRoundWord w nr r)

/-- `InvExpand(w, NR)`: the rounds `r = 0 .. NR` in order (R123). -/
def invExpandWords (w : List Word) (nr : Nat) : List Word :=
  (List.range (nr + 1)).flatMap (invRound w nr)

/-- Storage of a schedule in a 60-word register file, zero beyond its length (R24, R25, R128). -/
def scheduleFile (w : List Word) : Vector Word 60 := Vector.ofFn fun i => w.getD i 0

/-- Schedule words `K[k .. k+3]` as a block. -/
def roundKey (K : Vector Word 60) (k : Nat) : Block :=
  ⟨K.getD k 0, K.getD (k + 1) 0, K.getD (k + 2) 0, K.getD (k + 3) 0⟩

/-- One output word of a middle round (R125): the four bytes come from four different state words. -/
def mixColumn (T : Nat → Byte → Word) (a b c d : Word) : Word :=
  T 0 (byteOf a 0) ^^^ T 1 (byteOf b 1) ^^^ T 2 (byteOf c 2) ^^^ T 3 (byteOf d 3)

/-- A middle round (R125): all four new words are computed from the same old state. -/
def middleRound (T : Nat → Byte → Word) (s k : Block) : Block :=
  Block.xor
    ⟨mixColumn T s.w0 s.w1 s.w2 s.w3, mixColumn T s.w1 s.w2 s.w3 s.w0,
      mixColumn T s.w2 s.w3 s.w0 s.w1, mixColumn T s.w3 s.w0 s.w1 s.w2⟩ k

/-- One output word of the final round (R125): raw `S` lookups with the same byte gather. -/
def subColumn (S : Byte → Byte) (a b c d : Word) : Word :=
  wordOf (S (byteOf a 0)) (S (byteOf b 1)) (S (byteOf c 2)) (S (byteOf d 3))

/-- The final round (R125). -/
def finalRound (S : Byte → Byte) (s k : Block) : Block :=
  Block.xor
    ⟨subColumn S s.w0 s.w1 s.w2 s.w3, subColumn S s.w1 s.w2 s.w3 s.w0,
      subColumn S s.w2 s.w3 s.w0 s.w1, subColumn S s.w3 s.w0 s.w1 s.w2⟩ k

/-- `n` middle rounds from state `s`, the first with schedule words `K[k .. k+3]`, then the final round
(R125). -/
def cryptRounds (K : Vector Word 60) (T : Nat → Byte → Word) (S : Byte → Byte) :
    Nat → Nat → Block → Block
  | 0, k, s => finalRound S s (roundKey K k)
  | n + 1, k, s => cryptRounds K T S n (k + 4) (middleRound T s (roundKey K k))

/-- `Crypt(in, K, T0..T3, S)` with round number `nr` (R125). -/
def crypt (K : Vector Word 60) (nr : Nat) (T : Nat → Byte → Word) (S : Byte → Byte) (b : Block) : Block :=
  cryptRounds K T S (nr - 1) 4 (Block.xor b (roundKey K 0))

/-- `EncryptBlock(b)` under the forward schedule `ks` (R126). -/
def encryptBlock (ks : Vector Word 60) (nr : Nat) (b : Block) : Block := crypt ks nr subMix sbox b

/-- The swap of the 2nd and 4th words (R127). -/
def swap24 (b : Block) : Block := ⟨b.w0, b.w3, b.w2, b.w1⟩

/-- `DecryptBlock(b)` under the inverse schedule `iks` (R127). -/
def decryptBlock (iks : Vector Word 60) (nr : Nat) (b : Block) : Block :=
  swap24 (crypt iks nr invSubMix invSbox (swap24 b))

end Sys2Proof.Machine
end

