-- ==== Sys2Proof/Machine/Operands.lean ====
section
/-! DEFINITION. The operand forms of the commands: the key length code and the key register
(spec/30_encoding.md R75; spec/10_state.md R21), and the rounds of a key length
(spec/41_aes_engine.md R120). Blocks and initialization vectors are 16 bytes, packed by `packBlock`. -/

namespace Sys2Proof.Machine

/-- `KL` decode (R75): 0, 1, 2 give 4, 6, 8 words; 3 is reserved and gives none. -/
def keyLengthOf (kl : BitVec 2) : Option KeyLength :=
  match kl.toNat with
  | 0 => some .k128
  | 1 => some .k192
  | 2 => some .k256
  | _ => Option.none

/-- The rounds of a key length, `NR = NK + 6`, 0 where no key is loaded (R26, R120). -/
def KeyLength.rounds : KeyLength → Rounds
  | .none => .none
  | .k128 => .r10
  | .k192 => .r12
  | .k256 => .r14

/-- The key register `LOAD_KEY` writes: the packed key words, zero from word `NK` on (R21, R129). -/
def keyRegister (nk : Nat) (operand : Bytes) : Vector Word 8 :=
  Vector.ofFn fun i => if i.val < nk then (pack operand).getD i 0 else 0

/-- `Expand(key, NK)` for a key length: the `4 * (NR + 1)` forward schedule words (R120). -/
def forwardWords (key : List Word) (nk : KeyLength) : List Word :=
  expandWords key nk.words (4 * (nk.rounds.count + 1))

/-- `InvExpand(w, NR)` of the forward words (R123). -/
def inverseWords (key : List Word) (nk : KeyLength) : List Word :=
  invExpandWords (forwardWords key nk) nk.rounds.count

/-- `MINBUF`: `DIR` read as a number (R31). -/
def minBuf : Direction → Nat
  | .enc => 0
  | .dec => 1

end Sys2Proof.Machine
end

