-- ==== Sys2Proof/Machine/Ops.lean ====
section
/-! DEFINITION. The shared operations over the state: receiving an input, the reset event, the response,
completing a command and raising an error, the key-schedule cache, and block processing with its CBC
hooks. The core has no addressable memory (spec/20_memory.md R50) and no traps (spec/60_exceptions.md
R216): raising an error takes the place of taking an exception, and there is nothing to return from
(R217). -/

namespace Sys2Proof.Machine

/-- The next input on the channel and the state with it taken off; none where the host has issued
nothing more (R5, R57). -/
def takeInput (s : State) : Option (HostInput × State) :=
  match s.inputs with
  | [] => Option.none
  | e :: rest => some (e, { s with inputs := rest })

/-- The reset event: every element of R20 takes its value of R41 (R240). The two streams are outside the
core and stay (log entry 4). -/
def hardReset (s : State) : State :=
  { State.reset with inputs := s.inputs, responses := s.responses }

/-- One response: the status word as it stands after the command, and the emitted bytes (R79). -/
def respond (out : Bytes) (s : State) : State :=
  { s with responses := s.responses ++ [⟨statusWord s, out⟩] }

/-- The end of a command that succeeds: `ERR <- 0; UFL <- u`, and the response with its output. -/
def complete (out : Bytes) (u : Bool) (s : State) : State := respond out { s with err := .ok, ufl := u }

/-- `raise Error(code)` (R211, R213): `ERR` is the code, `STICKY` is 1, `UFL` is 0, nothing else changes
and nothing is emitted. -/
def raiseError (code : ErrCode) (s : State) : State :=
  respond [] { s with err := code, sticky := true, ufl := false }

/-- The key words `KEY[0 .. KEY_NK-1]` (R21). -/
def loadedKey (s : State) : List Word := s.key.toList.take s.keyNk.words

/-- `ExpandIfNeeded` (R128). -/
def expandIfNeeded (s : State) : State :=
  if s.ksValid = false ∨ s.keyDirty = true then
    { s with
      nr := s.keyNk.rounds
      ks := scheduleFile (forwardWords (loadedKey s) s.keyNk)
      iks := scheduleFile (inverseWords (loadedKey s) s.keyNk)
      ksValid := true
      keyDirty := false }
  else s

/-- `CbcEncryptBlock(b)` (R181). -/
def cbcEncryptBlock (b : Block) (s : State) : Block × State :=
  let o := encryptBlock s.ks s.nr.count (Block.xor b s.chain)
  (o, { s with chain := o })

/-- `CbcDecryptBlock(b)` (R182). -/
def cbcDecryptBlock (b : Block) (s : State) : Block × State :=
  let o := decryptBlock s.iks s.nr.count b
  (Block.xor o s.chain, { s with chain := b })

/-- `CbcBlock(b)`: the per-block hook of the direction `INIT` chose (R180). -/
def cbcBlock (b : Block) (s : State) : Block × State :=
  match s.dir with
  | .enc => cbcEncryptBlock b s
  | .dec => cbcDecryptBlock b s

/-- The loop of `Process` for `n` blocks, head first: each block goes through `CbcBlock` and is dropped
from the head of `DATA` (R150). -/
def processBlocks : Nat → State → Bytes × State
  | 0, s => ([], s)
  | n + 1, s =>
    let r := cbcBlock (packBlock (s.data.take 16)) s
    let rest := processBlocks n { r.2 with data := s.data.drop 16 }
    (unpackBlock r.1 ++ rest.1, rest.2)

/-- The number of blocks `Process(flush)` processes: every whole block when flushing, otherwise
`max(whole - MINBUF, 0)` (R150; subtraction of naturals stops at 0). -/
def blocksToProcess (flush : Bool) (dir : Direction) (len : Nat) : Nat :=
  if flush then len / 16 else len / 16 - minBuf dir

/-- `Process(flush)` (R150): the emitted bytes and the state after. -/
def process (flush : Bool) (s : State) : Bytes × State :=
  processBlocks (blocksToProcess flush s.dir s.data.length) s

/-- Whether `UPDATE` and `FINAL` are accepted: `STATE` is `IDLE` or `ACCUM` (R153, R154). -/
abbrev streaming (s : State) : Prop := s.state = .idle ∨ s.state = .accum

end Sys2Proof.Machine
end

