-- ==== Sys2Proof/Machine/Padding.lean ====
section
/-! DEFINITION. PKCS#7 padding and unpadding at the fixed block size of 16 bytes (spec/44_pkcs7.md R195 to
R199). -/

namespace Sys2Proof.Machine

/-- The number of bytes `Pad` appends to a string of length `n`: 1 to 16 (R195). -/
def padCount (n : Nat) : Nat := 16 - n % 16

/-- `Pad(x)` (R195). -/
def pad (x : Bytes) : Bytes := x ++ List.replicate (padCount x.length) (BitVec.ofNat 8 (padCount x.length))

/-- The number of bytes `Unpad` removes: the value of the last byte, 0 where there is none (R196, R199). -/
def unpadCount (y : Bytes) : Nat := if y.length = 0 then 0 else (y.getD (y.length - 1) 0).toNat

/-- `Unpad(y)`: the remaining bytes and the underflow bit (R196, R198). Nothing but the last byte is looked
at (R197). -/
def unpad (y : Bytes) : Bytes × Bool :=
  if unpadCount y > y.length then ([], true) else (y.take (y.length - unpadCount y), false)

end Sys2Proof.Machine
end

