-- ==== Sys2Proof/Machine/BufferedCommands.lean ====
section
/-! DEFINITION. The commands of the buffered accumulator: `STATUS`, `INIT`, `UPDATE`, `FINAL`
(spec/42_buffered.md R152 to R155), with the checks of spec/60_exceptions.md R212 in its order. -/

namespace Sys2Proof.Machine

/-- `STATUS` (R155): no state change; `ERR` and `UFL` stay as the previous command left them. -/
def execStatus (operand : Bytes) (s : State) : Host.Outcome State Fault Refusal :=
  if operand.length ≠ 0 then .next (raiseError .length s) else .next (respond [] s)

/-- The chaining value `INIT` sets from its `IVP` field (R183). -/
def initialChain (ivp : Bool) (s : State) : Block := if ivp then s.iv else Block.zero

/-- `INIT` (R152). -/
def execInit (dir : Direction) (ivp : Bool) (operand : Bytes) (s : State) :
    Host.Outcome State Fault Refusal :=
  if operand.length ≠ 0 then .next (raiseError .length s)
  else if s.keyNk = .none then .next (raiseError .nokey s)
  else .next (complete [] false
    { expandIfNeeded s with dir := dir, chain := initialChain ivp s, data := [], state := .idle })

/-- `UPDATE` (R153). -/
def execUpdate (operand : Bytes) (s : State) : Host.Outcome State Fault Refusal :=
  if ¬ streaming s then .next (raiseError .state s)
  else
    let r := process false { s with data := s.data ++ operand }
    .next (complete r.1 false { r.2 with state := .accum })

/-- The encrypting half of `FINAL`: pad, then process all (R154). -/
def finalEncrypt (operand : Bytes) (s : State) : State :=
  let r := process true { s with data := pad (s.data ++ operand) }
  complete r.1 false { r.2 with state := .final }

/-- The decrypting half of `FINAL`: process all, then unpad (R154). -/
def finalDecrypt (operand : Bytes) (s : State) : State :=
  let r := process true { s with data := s.data ++ operand }
  complete (unpad r.1).1 (unpad r.1).2 { r.2 with state := .final }

/-- `FINAL` (R154). -/
def execFinal (operand : Bytes) (s : State) : Host.Outcome State Fault Refusal :=
  if ¬ streaming s then .next (raiseError .state s)
  else
    match s.dir with
    | .enc => .next (finalEncrypt operand s)
    | .dec =>
      if (s.data.length + operand.length) % 16 ≠ 0 then .next (raiseError .partialBlock s)
      else .next (finalDecrypt operand s)

end Sys2Proof.Machine
end

