-- ==== Sys2Proof/Machine/CbcCommands.lean ====
section
/-! DEFINITION. The command of the CBC unit: `LOAD_IV` (spec/43_cbc.md R184). -/

namespace Sys2Proof.Machine

/-- `LOAD_IV` (R184). -/
def execLoadIv (operand : Bytes) (s : State) : Host.Outcome State Fault Refusal :=
  if operand.length ≠ 16 then .next (raiseError .length s)
  else .next (complete [] false { s with iv := packBlock operand })

end Sys2Proof.Machine
end

