-- ==== Sys2Proof/Machine/EngineCommands.lean ====
section
/-! DEFINITION. The commands of the AES engine: `LOAD_KEY`, `ENC_BLOCK`, `DEC_BLOCK`
(spec/41_aes_engine.md R129 to R131), with the checks of spec/60_exceptions.md R212 in its order. -/

namespace Sys2Proof.Machine

/-- `LOAD_KEY` (R129). -/
def execLoadKey (kl : BitVec 2) (operand : Bytes) (s : State) : Host.Outcome State Fault Refusal :=
  match keyLengthOf kl with
  | Option.none => .next (raiseError .keylen s)
  | some nk =>
    if operand.length ≠ 16 + 8 * kl.toNat then .next (raiseError .length s)
    else .next (complete [] false
      { s with key := keyRegister nk.words operand, keyNk := nk, keyDirty := true })

/-- `ENC_BLOCK` (R130). -/
def execEncBlock (operand : Bytes) (s : State) : Host.Outcome State Fault Refusal :=
  if operand.length ≠ 16 then .next (raiseError .length s)
  else if s.ksValid = false then .next (raiseError .nokey s)
  else .next (complete (unpackBlock (encryptBlock s.ks s.nr.count (packBlock operand))) false s)

/-- `DEC_BLOCK` (R131). -/
def execDecBlock (operand : Bytes) (s : State) : Host.Outcome State Fault Refusal :=
  if operand.length ≠ 16 then .next (raiseError .length s)
  else if s.ksValid = false then .next (raiseError .nokey s)
  else .next (complete (unpackBlock (decryptBlock s.iks s.nr.count (packBlock operand))) false s)

end Sys2Proof.Machine
end

