-- ==== Sys2Proof/Machine/PaddingCommands.lean ====
section
/-! DEFINITION. The commands of the padding unit: `PAD` and `UNPAD` (spec/44_pkcs7.md R200, R201). No
length is illegal and no key is needed. -/

namespace Sys2Proof.Machine

/-- `PAD` (R200). -/
def execPad (operand : Bytes) (s : State) : Host.Outcome State Fault Refusal :=
  .next (complete (pad operand) false s)

/-- `UNPAD` (R201). -/
def execUnpad (operand : Bytes) (s : State) : Host.Outcome State Fault Refusal :=
  .next (complete (unpad operand).1 (unpad operand).2 s)

end Sys2Proof.Machine
end

