-- ==== Sys2Proof/Machine/Dispatch.lean ====
section
/-! DEFINITION. One arm per command: `exec` calls the meaning of each (spec/30_encoding.md R72). -/

namespace Sys2Proof.Machine

def exec (i : Instr) (s : State) : Host.Outcome State Fault Refusal :=
  match i with
  | .status operand => Sys2Proof.Machine.execStatus operand s
  | .loadKey kl operand => Sys2Proof.Machine.execLoadKey kl operand s
  | .loadIv operand => Sys2Proof.Machine.execLoadIv operand s
  | .init dir ivp operand => Sys2Proof.Machine.execInit dir ivp operand s
  | .update operand => Sys2Proof.Machine.execUpdate operand s
  | .final operand => Sys2Proof.Machine.execFinal operand s
  | .encBlock operand => Sys2Proof.Machine.execEncBlock operand s
  | .decBlock operand => Sys2Proof.Machine.execDecBlock operand s
  | .pad operand => Sys2Proof.Machine.execPad operand s
  | .unpad operand => Sys2Proof.Machine.execUnpad operand s

end Sys2Proof.Machine
end

