-- ==== Sys2Proof/Machine/Step.lean ====
section
/-! DEFINITION. One step of the core: one input, executed atomically (spec/00_scope.md R4, R5;
spec/20_memory.md R56, R57, R63). -/

namespace Sys2Proof.Machine

/-- One step. With no input the core waits and nothing changes (R40, log entry 3). The reset event resets
(R240). A transfer with the wrong number of operand bytes is refused (R63); any other is decoded and
either executed or answered with its error (R78, R211). -/
def step (s : State) : Host.Outcome State Fault Refusal :=
  match takeInput s with
  | Option.none => .next s
  | some (.reset, s1) => .next (hardReset s1)
  | some (.command cmd operand, s1) =>
    match decode cmd operand with
    | .command i => exec i s1
    | .raises code => .next (raiseError code s1)
    | .notACommand => .refused .operandLength

/-- The host issues a table instruction next: it stands at the head of the command stream, where `step`
takes its next input (log entry 7). -/
def State.withFetchWord (s : State) (nbits w : Nat) : State :=
  { s with inputs := .command (tableCommand nbits w) (tableOperand nbits w) :: s.inputs }

end Sys2Proof.Machine
end

