-- ==== Sys2Proof/Machine/Assembler.lean ====
section
/-! DEFINITION. The assembler syntax and the pseudo-commands (spec/30_encoding.md R80, R81). The core never
sees text: this file gives the transfers a line stands for. A line is a list of characters; the white
space and the letter case it accepts are the model's choice (log entry 16). -/

namespace Sys2Proof.Machine

/-- The value of a hexadecimal digit. -/
def hexDigit (c : Char) : Option Nat :=
  if '0' ≤ c ∧ c ≤ '9' then some (c.toNat - 48)
  else if 'a' ≤ c ∧ c ≤ 'f' then some (c.toNat - 87)
  else if 'A' ≤ c ∧ c ≤ 'F' then some (c.toNat - 55)
  else none

/-- Hex digit pairs, most significant nibble first, in byte order (R80). -/
def hexBytes : List Char → Option Bytes
  | [] => some []
  | [_] => none
  | a :: b :: rest =>
    match hexDigit a, hexDigit b, hexBytes rest with
    | some x, some y, some bs => some (BitVec.ofNat 8 (16 * x + y) :: bs)
    | _, _, _ => none

/-- The characters up to a closing double quote, which must be the last, as ASCII bytes (R80). -/
def asciiBytes : List Char → Option Bytes
  | [] => none
  | ['"'] => some []
  | c :: rest =>
    if c = '"' ∨ 128 ≤ c.toNat then none
    else (asciiBytes rest).map (BitVec.ofNat 8 c.toNat :: ·)

/-- A byte-string operand: hex digit pairs or a double-quoted ASCII string (R80). -/
def operandText : List Char → Option Bytes
  | '"' :: rest => asciiBytes rest
  | digits => hexBytes digits

/-- The number eight hexadecimal digits write. -/
def hexWord (digits : List Char) : Option Word :=
  match hexBytes digits with
  | some [a, b, c, d] => some (a ++ b ++ c ++ d)
  | _ => none

/-- A text without the spaces at its two ends. -/
def trimSpaces (cs : List Char) : List Char :=
  ((cs.dropWhile (· == ' ')).reverse.dropWhile (· == ' ')).reverse

/-- A text cut at its commas, those inside a quoted string not counted; `quoted` says whether the text
begins inside one. -/
def cutAtCommas (quoted : Bool) : List Char → List (List Char)
  | [] => [[]]
  | c :: rest =>
    let pieces := cutAtCommas (if c = '"' then !quoted else quoted) rest
    if c = ',' ∧ quoted = false then [] :: pieces
    else match pieces with
      | [] => [[c]]
      | p :: ps => (c :: p) :: ps

/-- The operands of a line after its mnemonic; none where nothing stands there. -/
def operandTexts (cs : List Char) : List (List Char) :=
  if trimSpaces cs = [] then [] else (cutAtCommas false cs).map trimSpaces

/-- The key length names `k128`, `k192`, `k256` and their codes `KL` (R80). -/
def keyName (cs : List Char) : Option (BitVec 2) :=
  if cs = "k128".toList then some 0
  else if cs = "k192".toList then some 1
  else if cs = "k256".toList then some 2
  else none

/-- The direction names `enc` and `dec` (R80). -/
def directionName (cs : List Char) : Option Direction :=
  if cs = "enc".toList then some .enc
  else if cs = "dec".toList then some .dec
  else none

/-- The stream commands of a message: a `FINAL`, after as many `UPDATE` commands of `LEN_MAX` bytes as
it takes (R81). The number bounds the recursion. -/
def streamCommands : Nat → Bytes → List Instr
  | 0, m => [.final m]
  | n + 1, m =>
    if m.length ≤ Config.lenMax then [.final m]
    else .update (m.take Config.lenMax) :: streamCommands n (m.drop Config.lenMax)

/-- The expansion of the pseudo-commands `ENCRYPT` and `DECRYPT` (R81). -/
def pseudoCommand (dir : Direction) (kl : BitVec 2) (key iv message : Bytes) : List Instr :=
  [.loadKey kl key, .loadIv iv, .init dir true []] ++
    streamCommands (message.length / Config.lenMax) message

/-- The commands a mnemonic and its operand texts stand for (R80, R81). R80 gives the operand of `LOAD_KEY`,
`LOAD_IV`, `ENC_BLOCK` and `DEC_BLOCK` with a fixed byte count and does not say what an operand of another
count is; so does R81 with the key and the IV of a pseudo-command. The model's choice is that the line
stands for the command all the same, with `LEN` the count it has, and that the core answers `ERR_LENGTH`
(log entry 16). `UPDATE`, `PAD` and `UNPAD` without an operand are the lines of spec/95_test_vectors.md P5 and P6. -/
def assembleCommand (mnemonic : List Char) (args : List (List Char)) : Option (List Instr) :=
  match args with
  | [] =>
    if mnemonic = "STATUS".toList then some [.status []]
    else if mnemonic = "UPDATE".toList then some [.update []]
    else if mnemonic = "FINAL".toList then some [.final []]
    else if mnemonic = "PAD".toList then some [.pad []]
    else if mnemonic = "UNPAD".toList then some [.unpad []]
    else none
  | [a] =>
    if mnemonic = "INIT".toList then (directionName a).map fun dir => [.init dir false []]
    else if mnemonic = "LOAD_IV".toList then (operandText a).map fun b => [.loadIv b]
    else if mnemonic = "UPDATE".toList then (operandText a).map fun b => [.update b]
    else if mnemonic = "FINAL".toList then (operandText a).map fun b => [.final b]
    else if mnemonic = "ENC_BLOCK".toList then (operandText a).map fun b => [.encBlock b]
    else if mnemonic = "DEC_BLOCK".toList then (operandText a).map fun b => [.decBlock b]
    else if mnemonic = "PAD".toList then (operandText a).map fun b => [.pad b]
    else if mnemonic = "UNPAD".toList then (operandText a).map fun b => [.unpad b]
    else none
  | [a, b] =>
    if mnemonic = "LOAD_KEY".toList then
      match keyName a, operandText b with
      | some kl, some key => some [.loadKey kl key]
      | _, _ => none
    else if mnemonic = "INIT".toList ∧ b = "iv".toList then
      (directionName a).map fun dir => [.init dir true []]
    else none
  | [k, key, iv, message] =>
    match keyName k, operandText key, operandText iv, operandText message with
    | some kl, some kb, some ib, some m =>
      if mnemonic = "ENCRYPT".toList then some (pseudoCommand .enc kl kb ib m)
      else if mnemonic = "DECRYPT".toList then some (pseudoCommand .dec kl kb ib m)
      else none
    | _, _, _, _ => none
  | _ => none

/-- The transfer of a `.word` line: the given word with the given operand (R80). -/
def assembleWord (args : List (List Char)) : Option (Word × Bytes) :=
  match args with
  | ['0' :: 'x' :: digits] => (hexWord digits).map fun w => (w, [])
  | ['0' :: 'x' :: digits, b] =>
    match hexWord digits, operandText b with
    | some w, some bytes => some (w, bytes)
    | _, _ => none
  | _ => none

/-- The transfers of one line (R80, R81); none where its mnemonic and the number and kinds of its operands are
of no form of R80 or R81 (a byte count other than the form's does not matter, see `assembleCommand`; the
model's choice, log entry 16). `LEN` is the operand's byte count, so an operand that does not fit on the
channel has no transfer. -/
def assemble (line : List Char) : Option (List (Word × Bytes)) :=
  let line := trimSpaces line
  let mnemonic := line.takeWhile (· != ' ')
  let args := operandTexts (line.drop mnemonic.length)
  if mnemonic = ".word".toList then (assembleWord args).map fun t => [t]
  else
    match assembleCommand mnemonic args with
    | some is => if is.all Instr.sendable then some (is.map encode) else none
    | none => none

end Sys2Proof.Machine
end

