-- ==== Sys2Proof/Safety.lean ====
section
/-! DEFINITION. The terms the statements use: which error a command reports, the chaining equations, and
the invariant of the reachable states. Each is written from the rule it names; the block transform, the
key schedule and packing in them are the machine's, and statements of their own say what these compute. -/

namespace Sys2Proof.Machine

/-- `t` is `s` after an error (R211): `ERR`, `STICKY`, `UFL` and one more response with no output. -/
def Errored (code : ErrCode) (s t : State) : Prop :=
  t = { s with err := code, sticky := true, ufl := false,
               responses := s.responses ++ [⟨statusWord t, []⟩] }

/-- `t` answers, after the responses of `s`, with its own status word and the output `out` (R79). -/
def Answers (out : Bytes) (s t : State) : Prop := t.responses = s.responses ++ [⟨statusWord t, out⟩]

/-- The length rule of an opcode (R74). -/
def lengthRule (opc kl len : Nat) : Bool :=
  if opc = 0 ∨ opc = 3 then len == 0
  else if opc = 2 ∨ opc = 6 ∨ opc = 7 then len == 16
  else if opc = 1 then len == 16 + 8 * kl
  else true

/-- Whether `RSV` or a field the opcode does not use is nonzero (R73). -/
def unusedNonzero (cmd : Word) : Bool :=
  rsvField cmd != 0 || (opcField cmd != 3 && (dirField cmd || ivpField cmd)) ||
    (opcField cmd != 1 && klField cmd != 0)

/-- The error a command word raises by itself, the first of steps 1 to 4 of R212. -/
def wordError (cmd : Word) : Option ErrCode :=
  if opcField cmd > 9 then some .illegal
  else if unusedNonzero cmd then some .rsvd
  else if opcField cmd = 1 ∧ klField cmd = 3 then some .keylen
  else if lengthRule (opcField cmd) (klField cmd).toNat (lenField cmd) = false then some .length
  else none

/-- The error a command raises by its own checks of the state (R212 step 5). -/
def commandError (s : State) (cmd : Word) : Option ErrCode :=
  if opcField cmd = 3 ∧ s.keyNk = .none then some .nokey
  else if (opcField cmd = 6 ∨ opcField cmd = 7) ∧ s.ksValid = false then some .nokey
  else if (opcField cmd = 4 ∨ opcField cmd = 5) ∧ (s.state = .off ∨ s.state = .final) then some .state
  else if opcField cmd = 5 ∧ s.dir = .dec ∧ (s.data.length + lenField cmd) % 16 ≠ 0 then
    some .partialBlock
  else none

/-- The error a received command reports (R210, R212). -/
def reportedError (s : State) (cmd : Word) : Option ErrCode :=
  match wordError cmd with
  | some code => some code
  | none => commandError s cmd

/-- The 60-word register file `file` holds the `n` schedule words `w`, and 0 from word `n` on (R24, R25,
R128). -/
def HoldsWords (file : Vector Word 60) (n : Nat) (w : List Word) : Prop :=
  w.length = n ∧ ∀ i : Fin 60, file[i] = if i.val < n then w.getD i.val 0 else 0

/-- `KS`, `IKS` and `NR` hold the expansion of the key words `key` of length `nk`: the `4 * (NR + 1)` words of
`Expand` and of `InvExpand`, with zero fill (R24 to R27, R120, R123). -/
structure IsExpansion (s : State) (key : List Word) (nk : KeyLength) : Prop where
  loaded : nk ≠ .none
  words : key.length = nk.words
  rounds : s.nr = nk.rounds
  forward : HoldsWords s.ks (4 * (s.nr.count + 1)) (forwardWords key nk)
  inverse : HoldsWords s.iks (4 * (s.nr.count + 1)) (invExpandWords (forwardWords key nk) s.nr.count)

/-- The rounds of `Crypt` written out (R125): `s r i` is state word `i` after round `r`, round 0 being the
initial key addition; `K` is the schedule, `T k` the table `k`, and `S` the S-box of the final round. -/
def CryptEquations (K : Nat → Word) (nr : Nat) (T : Nat → Byte → Word) (S : Byte → Byte)
    (input output : Nat → Word) : Prop :=
  ∃ s : Nat → Nat → Word,
    (∀ i, i < 4 → s 0 i = input i ^^^ K i) ∧
    (∀ r, 1 ≤ r → r < nr → ∀ i, i < 4 →
      s r i = T 0 (byteOf (s (r - 1) i) 0) ^^^ T 1 (byteOf (s (r - 1) ((i + 1) % 4)) 1) ^^^
        T 2 (byteOf (s (r - 1) ((i + 2) % 4)) 2) ^^^ T 3 (byteOf (s (r - 1) ((i + 3) % 4)) 3) ^^^
        K (4 * r + i)) ∧
    (∀ i, i < 4 →
      output i = wordOf (S (byteOf (s (nr - 1) i) 0)) (S (byteOf (s (nr - 1) ((i + 1) % 4)) 1))
        (S (byteOf (s (nr - 1) ((i + 2) % 4)) 2)) (S (byteOf (s (nr - 1) ((i + 3) % 4)) 3)) ^^^
        K (4 * nr + i))

/-- The first `n` blocks of a byte string. -/
def blocksOf (d : Bytes) (n : Nat) : List Block :=
  (List.range n).map fun k => packBlock ((d.drop (16 * k)).take 16)

/-- The bytes of a sequence of blocks, in order. -/
def blockBytes (bs : List Block) : Bytes := bs.flatMap unpackBlock

/-- The chaining equations of R185 for the blocks `ins`, from the chaining value `c0`:
encrypting, `C_k = EncryptBlock(B_k ^ C_(k-1))`; decrypting, `P_k = DecryptBlock(B_k) ^ B_(k-1)`. -/
def CbcEquations (s : State) (c0 : Block) (ins outs : List Block) : Prop :=
  outs.length = ins.length ∧ ∀ k, k < ins.length →
    outs.getD k Block.zero =
      match s.dir with
      | .enc => encryptBlock s.ks s.nr.count
          (Block.xor (ins.getD k Block.zero) (if k = 0 then c0 else outs.getD (k - 1) Block.zero))
      | .dec => Block.xor (decryptBlock s.iks s.nr.count (ins.getD k Block.zero))
          (if k = 0 then c0 else ins.getD (k - 1) Block.zero)

/-- The chaining value after the blocks: the last ciphertext block, `c0` where there is none (R185). -/
def lastCiphertext (dir : Direction) (c0 : Block) (ins outs : List Block) : Block :=
  match dir with
  | .enc => outs.getLastD c0
  | .dec => ins.getLastD c0

/-- What holds in every state the core reaches between two commands. -/
structure State.Inv (s : State) : Prop where
  /-- `|DATA| <= 15` encrypting, `<= 31` decrypting (R33). -/
  data_bound : s.data.length ≤ if s.dir = .enc then 15 else 31
  /-- `DATA` is empty after `FINAL` (R33) and before the first `INIT`. -/
  data_empty : s.state = .final ∨ s.state = .off → s.data = []
  /-- `STATE` is `OFF` exactly until an `INIT` has expanded a schedule (R27, R34). -/
  off_iff : s.state = .off ↔ s.ksValid = false
  /-- Before the first `INIT` direction, chaining value and schedule are as reset left them (R41). -/
  before_init : s.state = .off → s.dir = .enc ∧ s.chain = Block.zero ∧ s.nr = .none ∧
    s.ks = Vector.replicate 60 0 ∧ s.iks = Vector.replicate 60 0
  /-- A valid schedule is the expansion of some key (R27, R243). -/
  schedule : s.ksValid = true → ∃ key nk, IsExpansion s key nk
  /-- A valid schedule with `KEY_DIRTY = 0` is the expansion of `KEY` (R23, R128). -/
  fresh : s.ksValid = true → s.keyDirty = false → IsExpansion s (s.key.toList.take s.keyNk.words) s.keyNk
  /-- Without a schedule `KEY_DIRTY` says whether a key has been loaded (R22, R23). -/
  dirty_iff : s.ksValid = false → (s.keyDirty = true ↔ s.keyNk ≠ .none)
  /-- With a schedule some key is loaded (R152). -/
  loaded : s.ksValid = true → s.keyNk ≠ .none
  /-- `KEY` is zero from word `KEY_NK` on (R21). -/
  key_fill : ∀ i : Fin 8, s.keyNk.words ≤ i.val → s.key[i] = 0
  /-- A reported error has set `STICKY` and cleared `UFL` (R211, R213). -/
  error_sticky : s.err ≠ .ok → s.sticky = true ∧ s.ufl = false

end Sys2Proof.Machine
end

