-- ==== Sys2Proof/Certificates/Slice0/Obligations.lean ====
section
/-! DEFINITION. The statements about the model, each from the rules of spec/ its docstring names. They are
stated here and proved elsewhere. A conclusion of the form "`t` is `s` with these fields changed" says
the result and the frame together: every element it does not name is unchanged. The fields `inputs` and
`responses` are the model's own form of the command and response streams (log entries 1 and 2). -/

open Sys2Proof Sys2Proof.Machine

/-! ## Reset and the step -/

/-- R41, R240: the reset state has every element at its value in the table of R41, and the status word
`0x00000000`. -/
def Obligations.ResetStateHasTheTableValues : Prop :=
  (∀ i : Fin 8, State.reset.key[i] = 0) ∧ State.reset.keyNk.words = 0 ∧ nkCode State.reset.keyNk = 0 ∧
    State.reset.keyDirty = false ∧ (∀ i : Fin 60, State.reset.ks[i] = 0) ∧
    (∀ i : Fin 60, State.reset.iks[i] = 0) ∧ State.reset.nr.count = 0 ∧ State.reset.ksValid = false ∧
    State.reset.iv = ⟨0, 0, 0, 0⟩ ∧ State.reset.chain = ⟨0, 0, 0, 0⟩ ∧ State.reset.dir = .enc ∧
    State.reset.data = [] ∧ State.reset.state = .off ∧ State.reset.err = .ok ∧
    State.reset.sticky = false ∧ State.reset.ufl = false ∧ statusWord State.reset = 0x00000000

/-- R240: a reset event sets every element to its reset value; the two streams, which are the model's own
(log entries 1, 2, 4), keep what is still to come and what was sent. -/
def Obligations.ResetEventResetsEveryElement : Prop :=
  ∀ (s : State) (rest : List HostInput),
    step { s with inputs := .reset :: rest } =
      .next { State.reset with inputs := rest, responses := s.responses }

/-- R57, R63, R78: a step takes the next input off the command stream and, where it decodes to a command,
is `exec` of that command; a word rejected by the decoder is answered with its error. Without an input
nothing changes (the model's choice, log entry 3). -/
def Obligations.StepRunsTheDecodedCommand : Prop :=
  (∀ (s : State) (rest : List HostInput) (cmd : Word) (operand : Bytes) (i : Instr),
    decode cmd operand = .command i →
      step { s with inputs := .command cmd operand :: rest } = exec i { s with inputs := rest }) ∧
  (∀ (s : State) (rest : List HostInput) (cmd : Word) (operand : Bytes) (code : ErrCode),
    decode cmd operand = .raises code →
      ∃ t, step { s with inputs := .command cmd operand :: rest } = .next t ∧
        Errored code { s with inputs := rest } t) ∧
  (∀ s : State, s.inputs = [] → step s = .next s)

/-- R63, R79, R222: a transfer whose operand does not have `LEN` bytes is no command and has no step; every
other transfer has exactly one next state and appends exactly one response, which carries the status
word as it stands after the command. That every such transfer is refused, whatever its word holds, is
the model's reading (log entry 5), and so is the form of the two streams, from which the input is taken
and to which the response is appended (log entries 1 and 2). -/
def Obligations.EveryReceivedCommandGetsOneResponse : Prop :=
  ∀ (s : State) (rest : List HostInput) (cmd : Word) (operand : Bytes),
    (operand.length ≠ lenField cmd →
      step { s with inputs := .command cmd operand :: rest } = .refused .operandLength) ∧
    (operand.length = lenField cmd →
      ∃ t out, step { s with inputs := .command cmd operand :: rest } = .next t ∧ t.inputs = rest ∧
        Answers out s t)

/-- R79: which commands emit. A command that raises an error emits nothing; `STATUS`, `LOAD_KEY`, `LOAD_IV`
and `INIT` emit nothing; `ENC_BLOCK` and `DEC_BLOCK` emit 16 bytes. -/
def Obligations.OnlyDataCommandsEmit : Prop :=
  ∀ (s : State) (rest : List HostInput) (cmd : Word) (operand : Bytes),
    operand.length = lenField cmd →
      ∃ t out, step { s with inputs := .command cmd operand :: rest } = .next t ∧ Answers out s t ∧
        (reportedError s cmd ≠ none → out = []) ∧ (opcField cmd < 4 → out = []) ∧
        (reportedError s cmd = none → opcField cmd = 6 ∨ opcField cmd = 7 → out.length = 16)

/-- R210, R211, R212: a received command reports the first error of the precedence order, with exactly the
effects of an error; without one it completes with `ERR = 0` (a `STATUS`: with nothing changed) and
leaves `STICKY` alone. -/
def Obligations.ErrorsFollowThePrecedence : Prop :=
  ∀ (s : State) (rest : List HostInput) (cmd : Word) (operand : Bytes),
    operand.length = lenField cmd →
      ∃ t, step { s with inputs := .command cmd operand :: rest } = .next t ∧
        (∀ code, reportedError s cmd = some code → Errored code { s with inputs := rest } t) ∧
        (reportedError s cmd = none → t.sticky = s.sticky ∧
          (if opcField cmd = 0 then t = { s with inputs := rest, responses := t.responses }
           else t.err = .ok))

/-! ## Decoding and encoding -/

/-- R70 to R76: decoding the encoding of a command gives the command back, for every command that fits on
the channel, every well-formed one among them. -/
def Obligations.DecodeOfEncodeIsTheCommand : Prop :=
  (∀ i : Instr, i.wf = true → i.sendable = true) ∧
  (∀ i : Instr, i.sendable = true → decode (encode i).1 (encode i).2 = .command i)

/-- R71: the fields of a command word, by its number. -/
def Obligations.CommandWordHasItsFields : Prop :=
  ∀ cmd : Word, opcField cmd = cmd.toNat % 256 ∧ dirField cmd = decide (cmd.toNat / 256 % 2 = 1) ∧
    ivpField cmd = decide (cmd.toNat / 512 % 2 = 1) ∧ (klField cmd).toNat = cmd.toNat / 1024 % 4 ∧
    (rsvField cmd).toNat = cmd.toNat / 4096 % 16 ∧ lenField cmd = cmd.toNat / 65536

/-- R71, R78: each command word has one meaning. A transfer that decodes to a command is the encoding of
that command. -/
def Obligations.EncodeOfDecodeIsTheTransfer : Prop :=
  ∀ (cmd : Word) (operand : Bytes) (i : Instr),
    decode cmd operand = .command i → encode i = (cmd, operand)

/-- R78: every command word, with an operand of `LEN` bytes, is one of the ten commands with all its field
rules met, or raises exactly the error R212 chooses, whatever the state. -/
def Obligations.EveryWordIsACommandOrRaises : Prop :=
  ∀ (cmd : Word) (operand : Bytes), operand.length = lenField cmd →
    (wordError cmd = none ∧ ∃ i, decode cmd operand = .command i ∧ i.wf = true) ∨
    (∃ code, wordError cmd = some code ∧ ∀ (s : State) (rest : List HostInput),
      ∃ t, step { s with inputs := .command cmd operand :: rest } = .next t ∧
        Errored code { s with inputs := rest } t)

/-- R72, spec/opcode_table.json: a word that matches a row of the opcode table decodes to the row's
command, and no word matches two rows. -/
def Obligations.TableRowsSelectTheirCommand : Prop :=
  opcodeTable.Pairwise (fun r r' => ∀ cmd : Word, ¬ (r.matches cmd = true ∧ r'.matches cmd = true)) ∧
  (∀ r ∈ opcodeTable, ∀ (cmd : Word) (operand : Bytes), r.matches cmd = true →
    operand.length = lenField cmd → ∃ i, decode cmd operand = .command i ∧ i.mnemonic = r.mnemonic)

/-- R71, R72, R80: command words of spec/30_encoding.md R80 and spec/95_test_vectors.md T50, decoded. A
sanity statement. -/
def Obligations.CommandWordsDecode : Prop :=
  decode 0x00000000 [] = .command (.status []) ∧
  decode 0x00180401 (List.replicate 24 0xAB) = .command (.loadKey 1 (List.replicate 24 0xAB)) ∧
  decode 0x00100002 (List.replicate 16 0xAB) = .command (.loadIv (List.replicate 16 0xAB)) ∧
  decode 0x00000003 [] = .command (.init .enc false []) ∧
  decode 0x00000103 [] = .command (.init .dec false []) ∧
  decode 0x00000203 [] = .command (.init .enc true []) ∧
  decode 0x00030004 [1, 2, 3] = .command (.update [1, 2, 3]) ∧
  decode 0x000b0005 (List.replicate 11 0x61) = .command (.final (List.replicate 11 0x61)) ∧
  decode 0x00100006 (List.replicate 16 0x11) = .command (.encBlock (List.replicate 16 0x11)) ∧
  decode 0x00100007 (List.replicate 16 0x11) = .command (.decBlock (List.replicate 16 0x11)) ∧
  decode 0x00010008 [0x61] = .command (.pad [0x61]) ∧
  decode 0x00040009 [0x61, 0x62, 0x63, 0x01] = .command (.unpad [0x61, 0x62, 0x63, 0x01]) ∧
  decode 0x0000f0ff [] = .raises .illegal ∧ decode 0x0000ff03 [] = .raises .rsvd

/-! ## Field arithmetic and tables -/

/-- R100, R101: `gmul` is commutative and associative, has the unit 1 and the zero 0, and distributes over
`^`; the product by 2 is `xtime`, which is the reduction by `0x11B` and so fixes the field. -/
def Obligations.GmulIsAFieldProduct : Prop :=
  (∀ b, gmul 2 b = xtime b) ∧
  (∀ b : Byte, xtime b = BitVec.ofNat 8 (if b.toNat < 128 then 2 * b.toNat else 2 * b.toNat ^^^ 0x11B)) ∧
  (∀ a b, gmul a b = gmul b a) ∧ (∀ a b c, gmul (gmul a b) c = gmul a (gmul b c)) ∧
    (∀ a, gmul 1 a = a) ∧ (∀ a, gmul 0 a = 0) ∧ (∀ a b c, gmul a (b ^^^ c) = gmul a b ^^^ gmul a c)

/-- R102: `ginv(0) = 0`, and for `b != 0` `ginv(b)` is the unique `y` with `gmul(b, y) = 1`. -/
def Obligations.GinvIsTheUniqueInverse : Prop :=
  ginv 0 = 0 ∧ ∀ b, b ≠ 0 → ∀ y, gmul b y = 1 ↔ y = ginv b

/-- R103 to R107: the ROM contents are the values of the formulas. The S-box is given in the second form of
R103, the first being the model's `sboxFormula`. -/
def Obligations.RomContentsFollowTheFormulas : Prop :=
  (∀ x, sbox x = sboxFormula x) ∧
  (∀ x, sbox x = ginv x ^^^ (ginv x).rotateLeft 1 ^^^ (ginv x).rotateLeft 2 ^^^ (ginv x).rotateLeft 3 ^^^
    (ginv x).rotateLeft 4 ^^^ 0x63) ∧
  (∀ x, invSbox (sbox x) = x) ∧ (∀ y, sbox (invSbox y) = y) ∧
  (∀ x, let s := sbox x
    subMix 0 x = wordOf (gmul 2 s) s s (gmul 3 s) ∧ subMix 1 x = wordOf (gmul 3 s) (gmul 2 s) s s ∧
    subMix 2 x = wordOf s (gmul 3 s) (gmul 2 s) s ∧ subMix 3 x = wordOf s s (gmul 3 s) (gmul 2 s)) ∧
  (∀ y, let x := invSbox y
    invSubMix 0 y = wordOf (gmul 0x0e x) (gmul 0x09 x) (gmul 0x0d x) (gmul 0x0b x) ∧
    invSubMix 1 y = wordOf (gmul 0x0b x) (gmul 0x0e x) (gmul 0x09 x) (gmul 0x0d x) ∧
    invSubMix 2 y = wordOf (gmul 0x0d x) (gmul 0x0b x) (gmul 0x0e x) (gmul 0x09 x) ∧
    invSubMix 3 y = wordOf (gmul 0x09 x) (gmul 0x0d x) (gmul 0x0b x) (gmul 0x0e x))

/-! ## Packing -/

/-- R9, R51, R52, R181: the bytes of a word and the word of four bytes, byte 0 the most significant; the block
of 16 bytes and its bytes; the exclusive or of two blocks, word by word. -/
def Obligations.BytesWordsAndBlocks : Prop :=
  (∀ (v : Word) (k : Nat), k < 4 → byteOf v k = v.extractLsb' (24 - 8 * k) 8) ∧
  (∀ b0 b1 b2 b3 : Byte, (wordOf b0 b1 b2 b3).toNat =
    16777216 * b0.toNat + 65536 * b1.toNat + 256 * b2.toNat + b3.toNat) ∧
  (∀ b0 b1 b2 b3 b4 b5 b6 b7 b8 b9 b10 b11 b12 b13 b14 b15 : Byte,
    let x := [b0, b1, b2, b3, b4, b5, b6, b7, b8, b9, b10, b11, b12, b13, b14, b15]
    let b : Block := ⟨wordOf b0 b1 b2 b3, wordOf b4 b5 b6 b7, wordOf b8 b9 b10 b11, wordOf b12 b13 b14 b15⟩
    packBlock x = b ∧ unpackBlock b = x) ∧
  (∀ b c : Block, Block.xor b c = ⟨b.w0 ^^^ c.w0, b.w1 ^^^ c.w1, b.w2 ^^^ c.w2, b.w3 ^^^ c.w3⟩)

/-- R51, R52: packing takes each group of four bytes most significant first, and packing and unpacking
undo each other. -/
def Obligations.PackAndUnpackAreInverse : Prop :=
  (∀ (x : Bytes) (j : Nat), 4 * j + 3 < x.length → (pack x).getD j 0 =
    wordOf (x.getD (4 * j) 0) (x.getD (4 * j + 1) 0) (x.getD (4 * j + 2) 0) (x.getD (4 * j + 3) 0)) ∧
  (∀ x : Bytes, x.length % 4 = 0 → (pack x).length = x.length / 4 ∧ unpack (pack x) = x) ∧
  (∀ ws : List Word, (unpack ws).length = 4 * ws.length ∧ pack (unpack ws) = ws) ∧
  (∀ (ws : List Word) (j k : Nat), j < ws.length → k < 4 →
    (unpack ws).getD (4 * j + k) 0 = byteOf (ws.getD j 0) k)

/-! ## Key schedule and block transform -/

/-- R120 to R122: the number of rounds and of schedule words, and the recurrence each word obeys over the
whole schedule; `RCON[0]` is never read. `RCON`, `RotWord` and `SubWord` are written out first. -/
def Obligations.ForwardScheduleObeysItsRecurrence : Prop :=
  (List.range 11).map rcon = [0x00, 0x01, 0x02, 0x04, 0x08, 0x10, 0x20, 0x40, 0x80, 0x1b, 0x36] ∧
  (∀ t, rotWord t = wordOf (byteOf t 1) (byteOf t 2) (byteOf t 3) (byteOf t 0)) ∧
  (∀ t, subWord t =
    wordOf (sbox (byteOf t 0)) (sbox (byteOf t 1)) (sbox (byteOf t 2)) (sbox (byteOf t 3))) ∧
  ∀ (key : List Word) (nk : KeyLength), nk ≠ .none → key.length = nk.words →
    let NK := nk.words
    let w := forwardWords key nk
    nk.rounds.count = NK + 6 ∧ w.length = 4 * (NK + 6 + 1) ∧
    ∀ i, i < w.length →
      (i < NK → w.getD i 0 = key.getD i 0) ∧
      (NK ≤ i → w.getD i 0 = w.getD (i - NK) 0 ^^^
        (if i % NK = 0 then
           subWord (rotWord (w.getD (i - 1) 0)) ^^^ ((rcon (i / NK)).setWidth 32 <<< 24)
         else if NK > 6 ∧ i % NK = 4 then subWord (w.getD (i - 1) 0)
         else w.getD (i - 1) 0)) ∧
      (NK ≤ i → i % NK = 0 → 1 ≤ i / NK ∧ i / NK ≤ 10)

/-- R123: the words of the inverse schedule, by round and word, and by the single-index walk. -/
def Obligations.InverseScheduleReordersAndMixes : Prop :=
  ∀ (w : List Word) (nr : Nat), w.length = 4 * (nr + 1) →
    let iw := invExpandWords w nr
    let p : Nat → Nat := fun j => if j = 0 then 0 else 4 - j
    iw.length = 4 * (nr + 1) ∧
    (∀ r j, r ≤ nr → j < 4 → iw.getD (4 * r + j) 0 =
      (let v := w.getD (4 * (nr - r) + p j) 0
       if r = 0 ∨ r = nr then v else invMixWord v)) ∧
    (∀ m, m < 4 * (nr + 1) → iw.getD m 0 =
      (let q := 4 * (nr + 1) - m
       let v := if m % 4 = 0 then w.getD (q - 4) 0 else w.getD q 0
       if m < 4 ∨ q ≤ 4 then v else invMixWord v))

/-- R124: `InvMixWord(t)` is the InvMixColumns of the column `t`, byte 0 being row 0. -/
def Obligations.InvMixWordIsInvMixColumns : Prop :=
  invMixWord 0 = 0 ∧ ∀ b0 b1 b2 b3 : Byte, invMixWord (wordOf b0 b1 b2 b3) = wordOf
    (gmul 0x0e b0 ^^^ gmul 0x0b b1 ^^^ gmul 0x0d b2 ^^^ gmul 0x09 b3)
    (gmul 0x09 b0 ^^^ gmul 0x0e b1 ^^^ gmul 0x0b b2 ^^^ gmul 0x0d b3)
    (gmul 0x0d b0 ^^^ gmul 0x09 b1 ^^^ gmul 0x0e b2 ^^^ gmul 0x0b b3)
    (gmul 0x0b b0 ^^^ gmul 0x0d b1 ^^^ gmul 0x09 b2 ^^^ gmul 0x0e b3)

/-- R125 to R127: what the block transforms compute, for every schedule and every round number the 60 words
allow. Encryption is the rounds of R125 with the forward tables and `SBOX`; decryption is the rounds with
the inverse tables and `INVSBOX`, the 2nd and 4th words swapped before and after. -/
def Obligations.BlockTransformsRunTheRounds : Prop :=
  ∀ (K : Vector Word 60) (nr : Nat) (b : Block), 1 ≤ nr → nr ≤ 14 →
    (∃ o0 o1 o2 o3, encryptBlock K nr b = ⟨o0, o1, o2, o3⟩ ∧
      CryptEquations (fun k => K.getD k 0) nr subMix sbox
        (fun i => [b.w0, b.w1, b.w2, b.w3].getD i 0) (fun i => [o0, o1, o2, o3].getD i 0)) ∧
    (∃ o0 o1 o2 o3, decryptBlock K nr b = ⟨o0, o3, o2, o1⟩ ∧
      CryptEquations (fun k => K.getD k 0) nr invSubMix invSbox
        (fun i => [b.w0, b.w3, b.w2, b.w1].getD i 0) (fun i => [o0, o1, o2, o3].getD i 0))

/-- R132: for every key of 4, 6 or 8 words and every block, with the schedules expanded from that key,
decryption undoes encryption and encryption undoes decryption; equal key words give equal schedules. -/
def Obligations.BlockTransformsAreInverse : Prop :=
  (∀ (s : State) (key : List Word) (nk : KeyLength), IsExpansion s key nk → ∀ b : Block,
    decryptBlock s.iks s.nr.count (encryptBlock s.ks s.nr.count b) = b ∧
    encryptBlock s.ks s.nr.count (decryptBlock s.iks s.nr.count b) = b) ∧
  (∀ (s s' : State) (key : List Word) (nk : KeyLength), IsExpansion s key nk → IsExpansion s' key nk →
    s.ks = s'.ks ∧ s.iks = s'.iks ∧ s.nr = s'.nr)

/-! ## The commands: result, frame and completion -/

/-- R155: a `STATUS` without operand completes in every state and changes nothing; the response carries the
status word. -/
def Obligations.StatusCompletes : Prop :=
  ∀ s : State, exec (.status []) s =
    .next { s with responses := s.responses ++ [⟨statusWord s, []⟩] }

/-- R129: `LOAD_KEY` completes in every state for `KL` in 0..2 and `LEN = 16 + 8*KL`; it writes the key
words packed from the operand with zero fill, the key length and `KEY_DIRTY`. -/
def Obligations.LoadKeyCompletes : Prop :=
  ∀ (s : State) (kl : BitVec 2) (operand : Bytes), kl ≠ 3 → operand.length = 16 + 8 * kl.toNat →
    ∃ t, exec (.loadKey kl operand) s = .next t ∧
      t = { s with key := t.key, keyNk := t.keyNk, keyDirty := true, err := .ok, ufl := false,
                   responses := s.responses ++ [⟨statusWord t, []⟩] } ∧
      t.keyNk.words = 4 + 2 * kl.toNat ∧ (nkCode t.keyNk).toNat = kl.toNat + 1 ∧
      ∀ i : Fin 8, t.key[i] =
        if i.val < 4 + 2 * kl.toNat then
          wordOf (operand.getD (4 * i.val) 0) (operand.getD (4 * i.val + 1) 0)
            (operand.getD (4 * i.val + 2) 0) (operand.getD (4 * i.val + 3) 0)
        else 0

/-- R184: `LOAD_IV` with 16 bytes completes in every state and writes only `IV`, `ERR` and `UFL`. -/
def Obligations.LoadIvCompletes : Prop :=
  ∀ (s : State) (b0 b1 b2 b3 b4 b5 b6 b7 b8 b9 b10 b11 b12 b13 b14 b15 : Byte),
    ∃ t, exec (.loadIv [b0, b1, b2, b3, b4, b5, b6, b7, b8, b9, b10, b11, b12, b13, b14, b15]) s = .next t ∧
      t = { s with iv := ⟨wordOf b0 b1 b2 b3, wordOf b4 b5 b6 b7, wordOf b8 b9 b10 b11,
                          wordOf b12 b13 b14 b15⟩,
                   err := .ok, ufl := false, responses := s.responses ++ [⟨statusWord t, []⟩] }

/-- R152, R183, R241: `INIT` completes in every state in which a key is loaded; the schedule is expanded
from `KEY` where there is none or a key was loaded since, word by word with zero fill (R24, R25, R128),
and kept otherwise. -/
def Obligations.InitCompletes : Prop :=
  ∀ (s : State) (dir : Direction) (ivp : Bool), s.keyNk ≠ .none →
    ∃ t, exec (.init dir ivp []) s = .next t ∧
      t = { s with keyDirty := false, ks := t.ks, iks := t.iks, nr := t.nr, ksValid := true, dir := dir,
                   chain := if ivp then s.iv else ⟨0, 0, 0, 0⟩, data := [], state := .idle, err := .ok,
                   ufl := false, responses := s.responses ++ [⟨statusWord t, []⟩] } ∧
      (s.ksValid = false ∨ s.keyDirty = true →
        let key := s.key.toList.take s.keyNk.words
        let w := forwardWords key s.keyNk
        let iw := invExpandWords w t.nr.count
        key.length = s.keyNk.words ∧ t.nr.count = s.keyNk.words + 6 ∧ IsExpansion t key s.keyNk ∧
        ∀ i : Fin 60,
          t.ks[i] = (if i.val < 4 * (t.nr.count + 1) then w.getD i.val 0 else 0) ∧
          t.iks[i] = (if i.val < 4 * (t.nr.count + 1) then iw.getD i.val 0 else 0)) ∧
      (s.ksValid = true → s.keyDirty = false → t.ks = s.ks ∧ t.iks = s.iks ∧ t.nr = s.nr)

/-- R153, R150, R185: `UPDATE` completes in `IDLE` and `ACCUM` for every operand. It processes
`max(whole blocks - MINBUF, 0)` blocks of the accumulated bytes by the chaining equations, emits them,
drops them from the head of `DATA`, and enters `ACCUM`. -/
def Obligations.UpdateCompletes : Prop :=
  ∀ (s : State) (operand : Bytes), s.state = .idle ∨ s.state = .accum →
    let d := s.data ++ operand
    let n := d.length / 16 - (if s.dir = .enc then 0 else 1)
    ∃ t outs, exec (.update operand) s = .next t ∧ CbcEquations s s.chain (blocksOf d n) outs ∧
      t = { s with data := d.drop (16 * n),
                   chain := lastCiphertext s.dir s.chain (blocksOf d n) outs, state := .accum, err := .ok,
                   ufl := false, responses := s.responses ++ [⟨statusWord t, blockBytes outs⟩] }

/-- R154, R195: an encrypting `FINAL` completes in `IDLE` and `ACCUM` for every operand: the accumulated
bytes are padded, every block is processed and emitted, `DATA` is empty and `STATE` is `FINAL`. -/
def Obligations.FinalEncryptCompletes : Prop :=
  ∀ (s : State) (operand : Bytes), s.state = .idle ∨ s.state = .accum → s.dir = .enc →
    let d := s.data ++ operand
    let k := 16 - d.length % 16
    let padded := d ++ List.replicate k (BitVec.ofNat 8 k)
    let n := d.length / 16 + 1
    ∃ t outs, exec (.final operand) s = .next t ∧ CbcEquations s s.chain (blocksOf padded n) outs ∧
      t = { s with data := [], chain := outs.getLastD s.chain, state := .final, err := .ok, ufl := false,
                   responses := s.responses ++ [⟨statusWord t, blockBytes outs⟩] }

/-- R154, R196: a decrypting `FINAL` of a whole number of blocks completes in `IDLE` and `ACCUM`: every
block is processed, the result is unpadded and emitted, `UFL` is the underflow bit, `DATA` is empty and
`STATE` is `FINAL`. -/
def Obligations.FinalDecryptCompletes : Prop :=
  ∀ (s : State) (operand : Bytes), s.state = .idle ∨ s.state = .accum → s.dir = .dec →
    (s.data.length + operand.length) % 16 = 0 →
    let d := s.data ++ operand
    let n := d.length / 16
    ∃ t outs, exec (.final operand) s = .next t ∧ CbcEquations s s.chain (blocksOf d n) outs ∧
      (let plain := blockBytes outs
       let k := (plain.getLastD 0).toNat
       t = { s with data := [], chain := (blocksOf d n).getLastD s.chain, state := .final, err := .ok,
                    ufl := decide (plain.length < k),
                    responses := s.responses ++ [⟨statusWord t,
                      if plain.length < k then [] else plain.take (plain.length - k)⟩] })

/-- R130, R131: `ENC_BLOCK` and `DEC_BLOCK` of a 16-byte block complete in every state with a schedule,
emit the bare transform of the block, and write nothing but `ERR` and `UFL`. -/
def Obligations.RawBlockCommandsComplete : Prop :=
  ∀ (s : State) (b0 b1 b2 b3 b4 b5 b6 b7 b8 b9 b10 b11 b12 b13 b14 b15 : Byte), s.ksValid = true →
    let operand := [b0, b1, b2, b3, b4, b5, b6, b7, b8, b9, b10, b11, b12, b13, b14, b15]
    let b : Block := ⟨wordOf b0 b1 b2 b3, wordOf b4 b5 b6 b7, wordOf b8 b9 b10 b11, wordOf b12 b13 b14 b15⟩
    (∃ t, exec (.encBlock operand) s = .next t ∧
      t = { s with err := .ok, ufl := false,
                   responses := s.responses ++
                     [⟨statusWord t, unpackBlock (encryptBlock s.ks s.nr.count b)⟩] }) ∧
    (∃ t, exec (.decBlock operand) s = .next t ∧
      t = { s with err := .ok, ufl := false,
                   responses := s.responses ++
                     [⟨statusWord t, unpackBlock (decryptBlock s.iks s.nr.count b)⟩] })

/-- R200: `PAD` completes in every state for every operand and writes nothing but `ERR` and `UFL`. -/
def Obligations.PadCompletes : Prop :=
  ∀ (s : State) (operand : Bytes),
    let k := 16 - operand.length % 16
    ∃ t, exec (.pad operand) s = .next t ∧
      t = { s with err := .ok, ufl := false,
                   responses := s.responses ++
                     [⟨statusWord t, operand ++ List.replicate k (BitVec.ofNat 8 k)⟩] }

/-- R201, R196 to R199: `UNPAD` completes in every state for every operand and writes nothing but `ERR` and
`UFL`: the last byte `n` is the count of bytes removed, 0 for an empty operand, and an underflow empties
the output and sets `UFL`. -/
def Obligations.UnpadCompletes : Prop :=
  ∀ (s : State) (operand : Bytes),
    let n := (operand.getLastD 0).toNat
    ∃ t, exec (.unpad operand) s = .next t ∧
      t = { s with err := .ok, ufl := decide (operand.length < n),
                   responses := s.responses ++ [⟨statusWord t,
                     if operand.length < n then [] else operand.take (operand.length - n)⟩] }

/-- R74, R75: a command that is not well-formed traps: it raises `ERR_KEYLEN` for `KL = 3` and otherwise
`ERR_LENGTH`, with the effects of an error, in every state. -/
def Obligations.IllFormedCommandsRaise : Prop :=
  ∀ (s : State) (i : Instr), i.sendable = true → i.wf = false →
    ∃ t, exec i s = .next t ∧
      Errored (match i with
        | .loadKey kl _ => if kl = 3 then .keylen else .length
        | _ => .length) s t

/-- R210: where commands trap on the state. `INIT` without a key and the raw block commands without a
schedule raise `ERR_NOKEY`, `UPDATE` and `FINAL` outside `IDLE` and `ACCUM` raise `ERR_STATE`, and a
decrypting `FINAL` of a stream that is not a whole number of blocks raises `ERR_PARTIAL`. -/
def Obligations.CommandsTrapOnTheState : Prop :=
  (∀ (s : State) (dir : Direction) (ivp : Bool), s.keyNk = .none →
    ∃ t, exec (.init dir ivp []) s = .next t ∧ Errored .nokey s t) ∧
  (∀ (s : State) (operand : Bytes), s.ksValid = false → operand.length = 16 →
    (∃ t, exec (.encBlock operand) s = .next t ∧ Errored .nokey s t) ∧
    (∃ t, exec (.decBlock operand) s = .next t ∧ Errored .nokey s t)) ∧
  (∀ (s : State) (operand : Bytes), s.state = .off ∨ s.state = .final →
    (∃ t, exec (.update operand) s = .next t ∧ Errored .state s t) ∧
    (∃ t, exec (.final operand) s = .next t ∧ Errored .state s t)) ∧
  (∀ (s : State) (operand : Bytes), s.state = .idle ∨ s.state = .accum → s.dir = .dec →
    (s.data.length + operand.length) % 16 ≠ 0 →
    ∃ t, exec (.final operand) s = .next t ∧ Errored .partialBlock s t)

/-! ## Padding -/

/-- R195, R202: `Pad(x)` appends `n = 16 - (|x| mod 16)` bytes of value `n`; its length is the next multiple
of 16 above `|x|`, at most `|x| + 16`. -/
def Obligations.PadAppendsOneToSixteenBytes : Prop :=
  ∀ x : Bytes, (∃ n, 1 ≤ n ∧ n ≤ 16 ∧ n = 16 - x.length % 16 ∧
      pad x = x ++ List.replicate n (BitVec.ofNat 8 n)) ∧
    (pad x).length = 16 * (x.length / 16 + 1) ∧ x.length < (pad x).length ∧
    (pad x).length ≤ x.length + 16

/-- R202: `Unpad(Pad(x)) = (x, 0)` for every byte string, and the converse does not hold in general. -/
def Obligations.UnpadUndoesPad : Prop :=
  (∀ x : Bytes, unpad (pad x) = (x, false)) ∧
  (∀ x : Bytes, 16 ∣ (pad x).length ∧ 0 < (pad x).length ∧ x.length < (pad x).length ∧
    (pad x).length ≤ x.length + 16) ∧
  (∃ y : Bytes, pad (unpad y).1 ≠ y)

/-- R197: no validation. `UNPAD` never raises an error, nor does the unpad of a decrypting `FINAL`, and of
the bytes only the length and the last one decide how many are kept and whether it underflows. -/
def Obligations.UnpadValidatesNothing : Prop :=
  (∀ (s : State) (operand : Bytes), ∃ t, exec (.unpad operand) s = .next t ∧ t.err = .ok ∧
    t.sticky = s.sticky) ∧
  (∀ y y' : Bytes, y.length = y'.length → y.getLastD 0 = y'.getLastD 0 →
    (unpad y).1.length = (unpad y').1.length ∧ (unpad y).2 = (unpad y').2) ∧
  (∀ (s : State) (operand : Bytes), s.state = .idle ∨ s.state = .accum → s.dir = .dec →
    (s.data.length + operand.length) % 16 = 0 →
    ∃ t, exec (.final operand) s = .next t ∧ t.err = .ok ∧ t.sticky = s.sticky)

/-! ## Invariants -/

/-- The invariant of the reachable states holds at reset. -/
def Obligations.InvariantHoldsAtReset : Prop := State.reset.Inv

/-- R21 to R27, R33, R34, R211: every step from a state with the invariant leads to a state with it. -/
def Obligations.EveryStepKeepsTheInvariant : Prop :=
  ∀ s t : State, s.Inv → step s = .next t → t.Inv

/-- R38: under the invariant the fields of the status word are the state elements, and its reserved bits
read 0. The codes of R22, R30 and R210 are written out first (those of `STATE` in the statement of its
transitions). -/
def Obligations.StatusWordHasItsLayout : Prop :=
  [KeyLength.none, .k128, .k192, .k256].map (fun k => (nkCode k, k.words)) =
    [(0, 0), (1, 4), (2, 6), (3, 8)] ∧
  [Direction.enc, .dec].map dirCode = [0, 1] ∧
  [ErrCode.ok, .illegal, .rsvd, .keylen, .length, .nokey, .state, .partialBlock].map ErrCode.code =
    [0, 1, 2, 3, 4, 5, 6, 7] ∧
  ∀ s : State, s.Inv →
    (statusWord s).extractLsb' 0 2 = stateCode s.state ∧ (statusWord s).extractLsb' 2 1 = dirCode s.dir ∧
    (statusWord s).getLsbD 3 = s.ksValid ∧ (statusWord s).getLsbD 4 = s.keyDirty ∧
    (statusWord s).extractLsb' 5 2 = nkCode s.keyNk ∧ (statusWord s).getLsbD 7 = s.ufl ∧
    (statusWord s).extractLsb' 8 4 = s.err.code ∧ (statusWord s).getLsbD 12 = s.sticky ∧
    (statusWord s).extractLsb' 13 3 = 0 ∧ ((statusWord s).extractLsb' 16 6).toNat = s.data.length ∧
    (statusWord s).extractLsb' 22 10 = 0 ∧ s.data.length ≤ Config.dataCap

/-- R128: under the invariant `INIT` leaves the schedule of `KEY`, whether or not it re-expands. -/
def Obligations.InitLeavesTheScheduleOfTheKey : Prop :=
  ∀ (s : State) (dir : Direction) (ivp : Bool), s.Inv → s.keyNk ≠ .none →
    ∃ t, exec (.init dir ivp []) s = .next t ∧ IsExpansion t (s.key.toList.take s.keyNk.words) s.keyNk ∧
      t.key = s.key ∧ t.keyNk = s.keyNk

/-! ## Whole-machine rules -/

/-- R34, R158: the encoding of `STATE` and its transitions, over all commands, every word that is no
command, and reset. -/
def Obligations.StateTransitions : Prop :=
  (stateCode .off = 0 ∧ stateCode .idle = 1 ∧ stateCode .accum = 2 ∧ stateCode .final = 3) ∧
  (∀ (i : Instr) (s t : State), exec i s = .next t →
    match i with
    | .init _ _ _ => (t.err = .ok → t.state = .idle) ∧ (t.err ≠ .ok → t.state = s.state)
    | .update _ =>
      if s.state = .idle ∨ s.state = .accum then t.state = .accum ∧ t.err = .ok else Errored .state s t
    | .final _ =>
      if s.state = .idle ∨ s.state = .accum then
        (t.err = .ok → t.state = .final) ∧ (t.err ≠ .ok → Errored .partialBlock s t)
      else Errored .state s t
    | _ => t.state = s.state) ∧
  (∀ (s t : State) (rest : List HostInput) (cmd : Word) (operand : Bytes) (code : ErrCode),
    decode cmd operand = .raises code →
      step { s with inputs := .command cmd operand :: rest } = .next t → t.state = s.state) ∧
  (∀ (s t : State) (rest : List HostInput), step { s with inputs := .reset :: rest } = .next t →
    t.state = .off)

/-- R21 to R30, R32: each element is written only by the commands its rule names, over all commands. -/
def Obligations.ElementsHaveTheirWriters : Prop :=
  ∀ (i : Instr) (s t : State), exec i s = .next t →
    (i.mnemonic ≠ "LOAD_KEY" → t.key = s.key ∧ t.keyNk = s.keyNk) ∧
    (i.mnemonic ≠ "LOAD_KEY" → i.mnemonic ≠ "INIT" → t.keyDirty = s.keyDirty) ∧
    (i.mnemonic ≠ "INIT" → t.ks = s.ks ∧ t.iks = s.iks ∧ t.nr = s.nr ∧ t.ksValid = s.ksValid ∧
      t.dir = s.dir) ∧
    (i.mnemonic ≠ "LOAD_IV" → t.iv = s.iv) ∧
    (i.mnemonic ≠ "INIT" → i.mnemonic ≠ "UPDATE" → i.mnemonic ≠ "FINAL" →
      t.chain = s.chain ∧ t.data = s.data) ∧ t.inputs = s.inputs

/-- R36, R213: only reset clears `STICKY`: it stays 1 along every run in which no reset event comes. -/
def Obligations.StickyIsClearedOnlyByReset : Prop :=
  ∀ (n : Nat) (s t : State), Host.Core.run Sys2Proof.core n s = .next t → HostInput.reset ∉ s.inputs →
    s.sticky = true → t.sticky = true

/-- R35, R37: the lifetimes of `ERR` and `UFL`. A successful `STATUS` keeps both; every other command leaves
`ERR` at its own result, and sets `UFL` only if it is `UNPAD` or a decrypting `FINAL`. -/
def Obligations.ErrAndUflDescribeTheLastCommand : Prop :=
  ∀ (i : Instr) (s t : State), exec i s = .next t →
    if i = .status [] then t.err = s.err ∧ t.ufl = s.ufl
    else (t.err ≠ .ok → Errored t.err s t) ∧
      (t.ufl = true → t.err = .ok ∧ ((∃ op, i = .unpad op) ∨ (∃ op, i = .final op ∧ s.dir = .dec)))

/-- R63, R222: no command hangs or leaves the core stuck. Any finite sequence of well-formed transfers and
reset events is executed to its end, one step each, and every transfer has its response. That the inputs
after a reset event are still executed, and the responses sent before it kept, is the model's choice
(log entry 4), and so are the two streams (log entries 1 and 2). -/
def Obligations.EveryInputSequenceIsAnswered : Prop :=
  ∀ s : State,
    (∀ cmd operand, HostInput.command cmd operand ∈ s.inputs → operand.length = lenField cmd) →
    ∃ t, Host.Core.run Sys2Proof.core s.inputs.length s = .next t ∧ t.inputs = [] ∧
      t.responses.length = s.responses.length + (s.inputs.filter (· ≠ .reset)).length

/-- R219: no command reads back `KEY`, `IV`, `KS`, `IKS` or `DATA`. The response of every command is the same
whatever `KEY` and `IV` hold (the schedule and `CHAIN` an `INIT` derives from them do show in the outputs
that follow); the response of a command that processes no block is the same whatever `KS`, `IKS`, `CHAIN`
and the bytes of `DATA` hold as well, of which only the number shows. -/
def Obligations.ResponsesDoNotRevealKeyOrIv : Prop :=
  (∀ (i : Instr) (s t t' : State) (key : Vector Word 8) (iv : Block),
    exec i s = .next t → exec i { s with key := key, iv := iv } = .next t' → t.responses = t'.responses) ∧
  (∀ (i : Instr) (s t t' : State) (key : Vector Word 8) (ks iks : Vector Word 60) (iv chain : Block)
    (data : Bytes),
    i.mnemonic ∈ ["STATUS", "LOAD_KEY", "LOAD_IV", "INIT", "PAD", "UNPAD"] →
    data.length = s.data.length → exec i s = .next t →
    exec i { s with key := key, ks := ks, iks := iks, iv := iv, chain := chain, data := data } = .next t' →
      t.responses = t'.responses)

/-- R211, R217: an erroneous command does not disturb the operation: the next command but a `STATUS`
behaves as if the erroneous one had not been issued, except for `STICKY` and the status words. -/
def Obligations.ErrorsDoNotDisturbTheNextCommand : Prop :=
  ∀ (i : Instr) (s e t t' : State) (code : ErrCode), Errored code s e → i.mnemonic ≠ "STATUS" →
    exec i s = .next t → exec i e = .next t' →
      t' = { t with sticky := true, responses := t'.responses } ∧
      ∃ out, Answers out s t ∧ Answers out e t'

/-- R55: repeated commands. `STATUS`, `ENC_BLOCK`, `DEC_BLOCK`, `PAD`, `UNPAD`, `LOAD_KEY` and `LOAD_IV`
issued a second time leave the same state and give the same response; a second `INIT` leaves the same
state. -/
def Obligations.RepeatedCommandsAreIdempotent : Prop :=
  ∀ (i : Instr) (s t u : State), i.mnemonic ≠ "UPDATE" → i.mnemonic ≠ "FINAL" →
    exec i s = .next t → exec i t = .next u →
      ∃ r, u = { t with responses := t.responses ++ [r] } ∧ t.responses = s.responses ++ [r]

/-! ## Streams -/

/-- R151, R245: hold-back. Decrypting, an `UPDATE` keeps the last whole block and any partial block;
encrypting, it keeps only the partial block. `DATA` is always the tail of the stream. -/
def Obligations.UpdateHoldsBackTheLastBlock : Prop :=
  ∀ (s : State) (operand : Bytes), s.state = .idle ∨ s.state = .accum →
    ∃ t, exec (.update operand) s = .next t ∧
      t.data = (s.data ++ operand).drop ((s.data ++ operand).length - t.data.length) ∧
      (s.dir = .enc → t.data.length = (s.data ++ operand).length % 16) ∧
      (s.dir = .dec → 16 ≤ (s.data ++ operand).length →
        t.data.length = 16 + (s.data ++ operand).length % 16) ∧
      (s.dir = .dec → (s.data ++ operand).length < 16 → t.data = s.data ++ operand)

/-- R157: split invariance of `UPDATE`. Two updates leave the state of one update of the joined operand,
and their outputs joined are its output. -/
def Obligations.UpdatesCanBeSplit : Prop :=
  ∀ (s : State) (a b : Bytes), s.state = .idle ∨ s.state = .accum →
    ∃ t1 t2 t out1 out2, exec (.update a) s = .next t1 ∧ exec (.update b) t1 = .next t2 ∧
      exec (.update (a ++ b)) s = .next t ∧ Answers out1 s t1 ∧ Answers out2 t1 t2 ∧
      Answers (out1 ++ out2) s t ∧ t2 = { t with responses := t2.responses }

/-- R157, R156: split invariance up to the end of the operation: an update and a final command leave the
state of one final command of the joined operand, and their outputs joined are its output. The condition
that the unpad of the split stream does not underflow is the model's reading of R157 by R154 and R156
(log entry 17). -/
def Obligations.FinalCanBeSplit : Prop :=
  ∀ (s : State) (a b : Bytes), s.state = .idle ∨ s.state = .accum →
    s.dir = .enc ∨ (s.data.length + (a ++ b).length) % 16 = 0 →
    ∃ t1 t2 t out1 out2 out, exec (.update a) s = .next t1 ∧ exec (.final b) t1 = .next t2 ∧
      exec (.final (a ++ b)) s = .next t ∧ Answers out1 s t1 ∧ Answers out2 t1 t2 ∧ Answers out s t ∧
      (t2.ufl = false → out = out1 ++ out2 ∧ t2 = { t with responses := t2.responses })

/-- R157 without the condition of R156: it does not hold. Decrypting a stream whose last byte exceeds the
length of the last output but not of the whole, the split shows (log entry 17). -/
def Obligations.FinalCanBeSplitDespiteUnderflow : Prop :=
  ∀ (s : State) (a b : Bytes), s.state = .idle ∨ s.state = .accum →
    s.dir = .enc ∨ (s.data.length + (a ++ b).length) % 16 = 0 →
    ∃ t1 t2 t out1 out2, exec (.update a) s = .next t1 ∧ exec (.final b) t1 = .next t2 ∧
      exec (.final (a ++ b)) s = .next t ∧ Answers out1 s t1 ∧ Answers out2 t1 t2 ∧
      Answers (out1 ++ out2) s t

/-- R185, R202, R132: a message encrypted in one operation and its ciphertext decrypted in the next, with
the same key and initial chaining value, is the message; `CHAIN` ends equal in both directions. -/
def Obligations.DecryptionReturnsTheMessage : Prop :=
  ∀ (s : State) (ivp : Bool) (message : Bytes), s.Inv → s.keyNk ≠ .none →
    ∃ t1 t2 t3 t4 cipher, exec (.init .enc ivp []) s = .next t1 ∧ exec (.final message) t1 = .next t2 ∧
      Answers cipher t1 t2 ∧ cipher.length = 16 * (message.length / 16 + 1) ∧
      exec (.init .dec ivp []) t2 = .next t3 ∧ exec (.final cipher) t3 = .next t4 ∧
      Answers message t3 t4 ∧ t4.err = .ok ∧ t4.ufl = false ∧ t4.chain = t2.chain

/-- R186: divergence. Two encryptions with the same schedule and chaining value agree before the first
differing block and differ at it. That they differ at a later block where the plaintexts agree is stated
for the blocks up to which the plaintexts agree from the first difference on, which is the model's
reading of R186 (log entry 18). -/
def Obligations.CiphertextsDiverge : Prop :=
  ∀ (s : State) (key : List Word) (nk : KeyLength), IsExpansion s key nk → s.dir = .enc →
    ∀ (c0 : Block) (ins ins' outs outs' : List Block) (k : Nat), ins.length = ins'.length →
      CbcEquations s c0 ins outs → CbcEquations s c0 ins' outs' → k < ins.length →
      (∀ j, j < k → ins.getD j Block.zero = ins'.getD j Block.zero) →
      ins.getD k Block.zero ≠ ins'.getD k Block.zero →
      (∀ j, j < k → outs.getD j Block.zero = outs'.getD j Block.zero) ∧
      outs.getD k Block.zero ≠ outs'.getD k Block.zero ∧
      (∀ j, k < j → j < ins.length →
        (∀ m, k < m → m ≤ j → ins.getD m Block.zero = ins'.getD m Block.zero) →
        outs.getD j Block.zero ≠ outs'.getD j Block.zero)

/-- R186 read literally, for every later block whose plaintexts agree: it does not hold where the streams
differ again in between and meet (log entry 18). -/
def Obligations.CiphertextsDivergeAtEveryEqualBlock : Prop :=
  ∀ (s : State) (key : List Word) (nk : KeyLength), IsExpansion s key nk → s.dir = .enc →
    ∀ (c0 : Block) (ins ins' outs outs' : List Block) (k : Nat), ins.length = ins'.length →
      CbcEquations s c0 ins outs → CbcEquations s c0 ins' outs' → k < ins.length →
      (∀ j, j < k → ins.getD j Block.zero = ins'.getD j Block.zero) →
      ins.getD k Block.zero ≠ ins'.getD k Block.zero →
      ∀ j, k < j → j < ins.length → ins.getD j Block.zero = ins'.getD j Block.zero →
        outs.getD j Block.zero ≠ outs'.getD j Block.zero

/-- R243: after a `LOAD_KEY` that no `INIT` has followed, `UPDATE`, `FINAL`, `ENC_BLOCK` and `DEC_BLOCK` give
the output and the stream state they would have given without it. -/
def Obligations.LoadKeyTakesEffectAtInit : Prop :=
  ∀ (i : Instr) (s t u v : State) (kl : BitVec 2) (operand : Bytes),
    i.mnemonic ∈ ["UPDATE", "FINAL", "ENC_BLOCK", "DEC_BLOCK"] →
    exec (.loadKey kl operand) s = .next t → t.err = .ok → exec i s = .next u → exec i t = .next v →
      v = { u with key := t.key, keyNk := t.keyNk, keyDirty := true, responses := v.responses } ∧
      ∃ out, Answers out s u ∧ Answers out t v

/-- R244, R183: after a `LOAD_IV`, `UPDATE` and `FINAL` give the output and stream state they would have
given without it, and the next `INIT` with `IVP = 1` chains from the new `IV`. -/
def Obligations.LoadIvTakesEffectAtInit : Prop :=
  ∀ (s t : State) (operand : Bytes), exec (.loadIv operand) s = .next t → t.err = .ok →
    (∀ (i : Instr) (u v : State), i.mnemonic = "UPDATE" ∨ i.mnemonic = "FINAL" →
      exec i s = .next u → exec i t = .next v →
        v = { u with iv := t.iv, responses := v.responses } ∧ ∃ out, Answers out s u ∧ Answers out t v) ∧
    (∀ (dir : Direction) (u : State), exec (.init dir true []) t = .next u → u.err = .ok →
      u.chain = packBlock operand)

/-- R81, R157: the expansion of the pseudo-commands: the key, the IV, the `INIT` with `IVP = 1`, and a
stream of `UPDATE` commands ended by a `FINAL` whose operands joined are the message; every one of them
is well-formed where the key and the IV have their lengths. -/
def Obligations.PseudoCommandsCarryTheMessage : Prop :=
  ∀ (dir : Direction) (kl : BitVec 2) (key iv message : Bytes),
    kl ≠ 3 → key.length = 16 + 8 * kl.toNat → iv.length = 16 →
    ∃ (chunks : List Bytes) (last : Bytes),
      pseudoCommand dir kl key iv message =
        [.loadKey kl key, .loadIv iv, .init dir true []] ++ chunks.map Instr.update ++ [.final last] ∧
      chunks.flatten ++ last = message ∧ (message.length ≤ Config.lenMax → chunks = []) ∧
      ∀ i ∈ pseudoCommand dir kl key iv message, i.wf = true
end

