-- ==== Sys2Proof/Laws/State.lean ====
section
/-! SUPPORT. One lemma per field for each shared operation over the state (Sys2Proof/Machine/Ops.lean),
so that no proof unfolds a record update. -/

namespace Sys2Proof.Machine

section
variable (s : State) (out : Bytes) (u : Bool) (code : ErrCode)

@[simp] theorem respond_key : (respond out s).key = s.key := rfl
@[simp] theorem respond_keyNk : (respond out s).keyNk = s.keyNk := rfl
@[simp] theorem respond_keyDirty : (respond out s).keyDirty = s.keyDirty := rfl
@[simp] theorem respond_ks : (respond out s).ks = s.ks := rfl
@[simp] theorem respond_iks : (respond out s).iks = s.iks := rfl
@[simp] theorem respond_nr : (respond out s).nr = s.nr := rfl
@[simp] theorem respond_ksValid : (respond out s).ksValid = s.ksValid := rfl
@[simp] theorem respond_iv : (respond out s).iv = s.iv := rfl
@[simp] theorem respond_chain : (respond out s).chain = s.chain := rfl
@[simp] theorem respond_dir : (respond out s).dir = s.dir := rfl
@[simp] theorem respond_data : (respond out s).data = s.data := rfl
@[simp] theorem respond_state : (respond out s).state = s.state := rfl
@[simp] theorem respond_err : (respond out s).err = s.err := rfl
@[simp] theorem respond_sticky : (respond out s).sticky = s.sticky := rfl
@[simp] theorem respond_ufl : (respond out s).ufl = s.ufl := rfl
@[simp] theorem respond_inputs : (respond out s).inputs = s.inputs := rfl
@[simp] theorem respond_responses : (respond out s).responses = s.responses ++ [⟨statusWord s, out⟩] := rfl

@[simp] theorem complete_key : (complete out u s).key = s.key := rfl
@[simp] theorem complete_keyNk : (complete out u s).keyNk = s.keyNk := rfl
@[simp] theorem complete_keyDirty : (complete out u s).keyDirty = s.keyDirty := rfl
@[simp] theorem complete_ks : (complete out u s).ks = s.ks := rfl
@[simp] theorem complete_iks : (complete out u s).iks = s.iks := rfl
@[simp] theorem complete_nr : (complete out u s).nr = s.nr := rfl
@[simp] theorem complete_ksValid : (complete out u s).ksValid = s.ksValid := rfl
@[simp] theorem complete_iv : (complete out u s).iv = s.iv := rfl
@[simp] theorem complete_chain : (complete out u s).chain = s.chain := rfl
@[simp] theorem complete_dir : (complete out u s).dir = s.dir := rfl
@[simp] theorem complete_data : (complete out u s).data = s.data := rfl
@[simp] theorem complete_state : (complete out u s).state = s.state := rfl
@[simp] theorem complete_err : (complete out u s).err = .ok := rfl
@[simp] theorem complete_sticky : (complete out u s).sticky = s.sticky := rfl
@[simp] theorem complete_ufl : (complete out u s).ufl = u := rfl
@[simp] theorem complete_inputs : (complete out u s).inputs = s.inputs := rfl
@[simp] theorem complete_responses : (complete out u s).responses = s.responses ++ [⟨statusWord (complete out u s), out⟩] := rfl

@[simp] theorem raiseError_key : (raiseError code s).key = s.key := rfl
@[simp] theorem raiseError_keyNk : (raiseError code s).keyNk = s.keyNk := rfl
@[simp] theorem raiseError_keyDirty : (raiseError code s).keyDirty = s.keyDirty := rfl
@[simp] theorem raiseError_ks : (raiseError code s).ks = s.ks := rfl
@[simp] theorem raiseError_iks : (raiseError code s).iks = s.iks := rfl
@[simp] theorem raiseError_nr : (raiseError code s).nr = s.nr := rfl
@[simp] theorem raiseError_ksValid : (raiseError code s).ksValid = s.ksValid := rfl
@[simp] theorem raiseError_iv : (raiseError code s).iv = s.iv := rfl
@[simp] theorem raiseError_chain : (raiseError code s).chain = s.chain := rfl
@[simp] theorem raiseError_dir : (raiseError code s).dir = s.dir := rfl
@[simp] theorem raiseError_data : (raiseError code s).data = s.data := rfl
@[simp] theorem raiseError_state : (raiseError code s).state = s.state := rfl
@[simp] theorem raiseError_err : (raiseError code s).err = code := rfl
@[simp] theorem raiseError_sticky : (raiseError code s).sticky = true := rfl
@[simp] theorem raiseError_ufl : (raiseError code s).ufl = false := rfl
@[simp] theorem raiseError_inputs : (raiseError code s).inputs = s.inputs := rfl
@[simp] theorem raiseError_responses : (raiseError code s).responses = s.responses ++ [⟨statusWord (raiseError code s), []⟩] := rfl

@[simp] theorem hardReset_key : (hardReset s).key = State.reset.key := rfl
@[simp] theorem hardReset_keyNk : (hardReset s).keyNk = State.reset.keyNk := rfl
@[simp] theorem hardReset_keyDirty : (hardReset s).keyDirty = State.reset.keyDirty := rfl
@[simp] theorem hardReset_ks : (hardReset s).ks = State.reset.ks := rfl
@[simp] theorem hardReset_iks : (hardReset s).iks = State.reset.iks := rfl
@[simp] theorem hardReset_nr : (hardReset s).nr = State.reset.nr := rfl
@[simp] theorem hardReset_ksValid : (hardReset s).ksValid = State.reset.ksValid := rfl
@[simp] theorem hardReset_iv : (hardReset s).iv = State.reset.iv := rfl
@[simp] theorem hardReset_chain : (hardReset s).chain = State.reset.chain := rfl
@[simp] theorem hardReset_dir : (hardReset s).dir = State.reset.dir := rfl
@[simp] theorem hardReset_data : (hardReset s).data = State.reset.data := rfl
@[simp] theorem hardReset_state : (hardReset s).state = State.reset.state := rfl
@[simp] theorem hardReset_err : (hardReset s).err = State.reset.err := rfl
@[simp] theorem hardReset_sticky : (hardReset s).sticky = State.reset.sticky := rfl
@[simp] theorem hardReset_ufl : (hardReset s).ufl = State.reset.ufl := rfl
@[simp] theorem hardReset_inputs : (hardReset s).inputs = s.inputs := rfl
@[simp] theorem hardReset_responses : (hardReset s).responses = s.responses := rfl

@[simp] theorem expandIfNeeded_key : (expandIfNeeded s).key = s.key := by
  unfold expandIfNeeded; split <;> rfl
@[simp] theorem expandIfNeeded_keyNk : (expandIfNeeded s).keyNk = s.keyNk := by
  unfold expandIfNeeded; split <;> rfl
@[simp] theorem expandIfNeeded_iv : (expandIfNeeded s).iv = s.iv := by
  unfold expandIfNeeded; split <;> rfl
@[simp] theorem expandIfNeeded_chain : (expandIfNeeded s).chain = s.chain := by
  unfold expandIfNeeded; split <;> rfl
@[simp] theorem expandIfNeeded_dir : (expandIfNeeded s).dir = s.dir := by
  unfold expandIfNeeded; split <;> rfl
@[simp] theorem expandIfNeeded_data : (expandIfNeeded s).data = s.data := by
  unfold expandIfNeeded; split <;> rfl
@[simp] theorem expandIfNeeded_state : (expandIfNeeded s).state = s.state := by
  unfold expandIfNeeded; split <;> rfl
@[simp] theorem expandIfNeeded_err : (expandIfNeeded s).err = s.err := by
  unfold expandIfNeeded; split <;> rfl
@[simp] theorem expandIfNeeded_sticky : (expandIfNeeded s).sticky = s.sticky := by
  unfold expandIfNeeded; split <;> rfl
@[simp] theorem expandIfNeeded_ufl : (expandIfNeeded s).ufl = s.ufl := by
  unfold expandIfNeeded; split <;> rfl
@[simp] theorem expandIfNeeded_inputs : (expandIfNeeded s).inputs = s.inputs := by
  unfold expandIfNeeded; split <;> rfl
@[simp] theorem expandIfNeeded_responses : (expandIfNeeded s).responses = s.responses := by
  unfold expandIfNeeded; split <;> rfl

/-- The status word is a view of the state elements alone: it does not depend on the two streams. -/
@[simp] theorem statusWord_streams (inputs : List HostInput) (responses : List Response) :
    statusWord { s with inputs := inputs, responses := responses } = statusWord s := rfl

@[simp] theorem statusWord_respond : statusWord (respond out s) = statusWord s := rfl

end

end Sys2Proof.Machine
end

