-- ==== Sys2Proof/Laws/Ops.lean ====
section
/-! SUPPORT. What the shared operations and the meanings can do, said once: the end of a command, raising
an error, the schedule cache, and the outcomes of `exec` and `step`. -/

namespace Sys2Proof.Machine

/-- Completing a command, as a record update that names its own status word. -/
theorem complete_eq (out : Bytes) (u : Bool) (s : State) :
    complete out u s =
      { s with err := .ok, ufl := u
               responses := s.responses ++ [⟨statusWord (complete out u s), out⟩] } := rfl

/-- Raising an error has the effects R211 lists. -/
theorem raiseError_errored (code : ErrCode) (s : State) : Errored code s (raiseError code s) := rfl

theorem errored_iff (code : ErrCode) (s t : State) : Errored code s t ↔ t = raiseError code s :=
  ⟨fun h => by
    unfold Errored at h
    have hw : statusWord t = statusWord (raiseError code s) := by rw [h]; rfl
    rw [hw] at h
    exact h, fun h => h ▸ rfl⟩

/-- With no schedule or a dirty key, the cache is filled from `KEY`. -/
theorem expandIfNeeded_of_needed {s : State} (h : s.ksValid = false ∨ s.keyDirty = true) :
    expandIfNeeded s =
      { s with nr := s.keyNk.rounds, ks := scheduleFile (forwardWords (loadedKey s) s.keyNk)
               iks := scheduleFile (inverseWords (loadedKey s) s.keyNk), ksValid := true
               keyDirty := false } := by
  simp only [expandIfNeeded, if_pos h]

/-- With a clean schedule, nothing changes. -/
theorem expandIfNeeded_of_clean {s : State} (hv : s.ksValid = true) (hd : s.keyDirty = false) :
    expandIfNeeded s = s := by
  simp [expandIfNeeded, hv, hd]

@[simp] theorem expandIfNeeded_ksValid (s : State) : (expandIfNeeded s).ksValid = true := by
  unfold expandIfNeeded; split
  · rfl
  · next h => simpa using (not_or.mp h).1

@[simp] theorem expandIfNeeded_keyDirty (s : State) : (expandIfNeeded s).keyDirty = false := by
  unfold expandIfNeeded; split
  · rfl
  · next h => simpa using (not_or.mp h).2

/-- A loaded key has `KEY_NK` words. -/
@[simp] theorem loadedKey_length (s : State) : (loadedKey s).length = s.keyNk.words := by
  have : s.keyNk.words ≤ 8 := by cases s.keyNk <;> decide
  simp [loadedKey, this]

@[simp] theorem expandWords_length (key : List Word) (nk : Nat) : ∀ n, (expandWords key nk n).length = n
  | 0 => rfl
  | n + 1 => by simp [expandWords, expandWords_length key nk n]

@[simp] theorem forwardWords_length (key : List Word) (nk : KeyLength) :
    (forwardWords key nk).length = 4 * (nk.rounds.count + 1) := expandWords_length _ _ _

@[simp] theorem invExpandWords_length (w : List Word) (nr : Nat) :
    (invExpandWords w nr).length = 4 * (nr + 1) := by
  simp [invExpandWords, invRound, Nat.mul_comm]

/-- The register file of a schedule holds its words and zero from there on. -/
theorem scheduleFile_holdsWords (w : List Word) : HoldsWords (scheduleFile w) w.length w := by
  refine ⟨rfl, fun i => ?_⟩
  simp only [scheduleFile, Fin.getElem_fin, Vector.getElem_ofFn]
  split
  · rfl
  · next h => exact List.getD_eq_default _ _ (Nat.le_of_not_lt h)

/-- A register file is determined by the words it holds. -/
theorem HoldsWords.unique {a b : Vector Word 60} {n : Nat} {w : List Word} (ha : HoldsWords a n w)
    (hb : HoldsWords b n w) : a = b :=
  Vector.ext fun i hi => (ha.2 ⟨i, hi⟩).trans (hb.2 ⟨i, hi⟩).symm

/-- The expansion of the loaded key. -/
theorem expandIfNeeded_isExpansion {s : State} (hk : s.keyNk ≠ .none)
    (h : s.ksValid = false ∨ s.keyDirty = true) :
    IsExpansion (expandIfNeeded s) (loadedKey s) s.keyNk := by
  rw [expandIfNeeded_of_needed h]
  refine ⟨hk, loadedKey_length s, rfl, ?_, ?_⟩
  · simpa using scheduleFile_holdsWords (forwardWords (loadedKey s) s.keyNk)
  · simpa [inverseWords] using scheduleFile_holdsWords (inverseWords (loadedKey s) s.keyNk)

/-- `IsExpansion` looks at the schedule elements only. -/
theorem IsExpansion.congr {s t : State} {key : List Word} {nk : KeyLength} (h : IsExpansion s key nk)
    (hks : t.ks = s.ks) (hiks : t.iks = s.iks) (hnr : t.nr = s.nr) : IsExpansion t key nk :=
  ⟨h.loaded, h.words, hnr ▸ h.rounds, by rw [hks, hnr]; exact h.forward,
    by rw [hiks, hnr]; exact h.inverse⟩

end Sys2Proof.Machine
end

