-- ==== Sys2Proof/Laws/Stream.lean ====
section
/-! SUPPORT. Block processing: the loop of `Process` obeys the chaining equations of R185, and it changes
nothing but `DATA` and `CHAIN`. -/

namespace Sys2Proof.Machine

/-- The block `CbcBlock` returns, as a function of the chaining value. -/
def cbcOut (s : State) (c b : Block) : Block :=
  match s.dir with
  | .enc => encryptBlock s.ks s.nr.count (Block.xor b c)
  | .dec => Block.xor (decryptBlock s.iks s.nr.count b) c

/-- The chaining value `CbcBlock` leaves: the ciphertext block of either direction. -/
def cbcNext (s : State) (b o : Block) : Block :=
  match s.dir with
  | .enc => o
  | .dec => b

/-- The outputs of a run of blocks from a chaining value. -/
def cbcRun (s : State) : Block → List Block → List Block
  | _, [] => []
  | c, b :: bs =>
    let o := cbcOut s c b
    o :: cbcRun s (cbcNext s b o) bs

theorem cbcBlock_eq (b : Block) (s : State) :
    cbcBlock b s = (cbcOut s s.chain b, { s with chain := cbcNext s b (cbcOut s s.chain b) }) := by
  unfold cbcBlock cbcOut cbcNext
  split <;> simp_all [cbcEncryptBlock, cbcDecryptBlock]

@[simp] theorem cbcRun_length (s : State) : ∀ (c : Block) (bs : List Block), (cbcRun s c bs).length = bs.length
  | _, [] => rfl
  | c, b :: bs => by simp [cbcRun, cbcRun_length s _ bs]

/-- A run depends on the schedule and the direction only. -/
theorem cbcRun_congr {s t : State} (hd : t.dir = s.dir) (hk : t.ks = s.ks) (hi : t.iks = s.iks)
    (hn : t.nr = s.nr) : ∀ (c : Block) (bs : List Block), cbcRun t c bs = cbcRun s c bs
  | _, [] => rfl
  | c, b :: bs => by
    have ho : cbcOut t c b = cbcOut s c b := by simp [cbcOut, hd, hk, hi, hn]
    have hx : ∀ o, cbcNext t b o = cbcNext s b o := by intro o; simp [cbcNext, hd]
    simp [cbcRun, ho, hx, cbcRun_congr hd hk hi hn _ bs]

@[simp] theorem blocksOf_length (d : Bytes) (n : Nat) : (blocksOf d n).length = n := by simp [blocksOf]

theorem blocksOf_succ (d : Bytes) (n : Nat) :
    blocksOf d (n + 1) = packBlock (d.take 16) :: blocksOf (d.drop 16) n := by
  simp only [blocksOf, List.range_succ_eq_map, List.map_cons, List.map_map, Nat.mul_zero, List.drop_zero]
  congr 1
  apply List.map_congr_left
  intro k _
  simp only [Function.comp, List.drop_drop]
  congr 3
  omega

@[simp] theorem blockBytes_nil : blockBytes [] = [] := rfl

@[simp] theorem blockBytes_cons (b : Block) (bs : List Block) :
    blockBytes (b :: bs) = unpackBlock b ++ blockBytes bs := rfl

@[simp] theorem unpackBlock_length (b : Block) : (unpackBlock b).length = 16 := rfl

@[simp] theorem blockBytes_length : ∀ bs : List Block, (blockBytes bs).length = 16 * bs.length
  | [] => rfl
  | b :: bs => by
    have : (unpackBlock b).length = 16 := rfl
    simp [blockBytes_length bs, this]; omega

theorem lastCiphertext_cons (s : State) (c b o : Block) (bs os : List Block) :
    lastCiphertext s.dir c (b :: bs) (o :: os) = lastCiphertext s.dir (cbcNext s b o) bs os := by
  cases h : s.dir <;> simp only [lastCiphertext, cbcNext, h, List.getLastD_cons]

/-- The loop of `Process` (R150): it emits the run of the first `n` blocks of `DATA`, drops them, leaves the
last ciphertext block in `CHAIN`, and changes nothing else. -/
theorem processBlocks_eq : ∀ (n : Nat) (s : State),
    processBlocks n s =
      (blockBytes (cbcRun s s.chain (blocksOf s.data n)),
        { s with data := s.data.drop (16 * n),
                 chain := lastCiphertext s.dir s.chain (blocksOf s.data n)
                   (cbcRun s s.chain (blocksOf s.data n)) })
  | 0, s => by
    cases h : s.dir <;> simp [processBlocks, blocksOf, cbcRun, lastCiphertext] <;> (cases s; simp_all)
  | n + 1, s => by
    have ih := processBlocks_eq n
      { s with chain := cbcNext s (packBlock (s.data.take 16)) (cbcOut s s.chain (packBlock (s.data.take 16))),
               data := s.data.drop 16 }
    have hc : ∀ c bs, cbcRun { s with
        chain := cbcNext s (packBlock (s.data.take 16)) (cbcOut s s.chain (packBlock (s.data.take 16))),
        data := s.data.drop 16 } c bs = cbcRun s c bs := cbcRun_congr rfl rfl rfl rfl
    simp only [processBlocks, cbcBlock_eq]
    rw [ih]
    simp only [hc, blocksOf_succ, cbcRun, blockBytes_cons, lastCiphertext_cons, List.drop_drop]
    have : 16 + 16 * n = 16 * (n + 1) := by omega
    rw [this]

/-- The chaining equations of a first block and the rest. -/
theorem cbcEquations_cons (s : State) (c b o : Block) (bs os : List Block) :
    CbcEquations s c (b :: bs) (o :: os) ↔ o = cbcOut s c b ∧ CbcEquations s (cbcNext s b o) bs os := by
  constructor
  · rintro ⟨hl, heq⟩
    refine ⟨?_, by simpa using hl, fun k hk => ?_⟩
    · have := heq 0 (by simp)
      cases h : s.dir <;> simpa [cbcOut, h] using this
    · have := heq (k + 1) (by simpa using hk)
      cases h : s.dir <;> cases k <;> simpa [cbcNext, h] using this
  · rintro ⟨ho, hl, heq⟩
    refine ⟨by simpa using hl, fun k hk => ?_⟩
    cases k with
    | zero => cases h : s.dir <;> simp [ho, cbcOut, h]
    | succ k =>
      have := heq k (by simpa using hk)
      cases h : s.dir <;> cases k <;> simpa [cbcNext, h] using this

/-- The run obeys the chaining equations of R185. -/
theorem cbcRun_equations (s : State) : ∀ (c : Block) (bs : List Block), CbcEquations s c bs (cbcRun s c bs)
  | _, [] => ⟨rfl, by simp⟩
  | c, b :: bs => (cbcEquations_cons s c b _ bs _).mpr ⟨rfl, cbcRun_equations s _ bs⟩

/-- The chaining equations determine the outputs. -/
theorem cbcEquations_unique (s : State) : ∀ (c : Block) (bs outs : List Block),
    CbcEquations s c bs outs → outs = cbcRun s c bs
  | _, [], outs, h => by simpa [cbcRun] using h.1
  | c, b :: bs, [], h => by simp [CbcEquations] at h
  | c, b :: bs, o :: os, h => by
    obtain ⟨rfl, ht⟩ := (cbcEquations_cons s c b o bs os).mp h
    rw [cbcEquations_unique s _ bs os ht, cbcRun]

end Sys2Proof.Machine
end

