-- ==== Sys2Proof/Laws/Commands.lean ====
section
/-! SUPPORT. What `exec` answers for each command, one lemma per branch of its meaning, and what every
command has in common. -/

namespace Sys2Proof.Machine

variable {s : State} {operand : Bytes}

/-- The state after `n` blocks of the bytes `d` have been processed: they are dropped from `d`, and `CHAIN`
holds the last ciphertext block (R150, R185). -/
def afterBlocks (s : State) (d : Bytes) (n : Nat) : State :=
  { s with data := d.drop (16 * n)
           chain := lastCiphertext s.dir s.chain (blocksOf d n) (cbcRun s s.chain (blocksOf d n)) }

/-- The bytes those blocks become. -/
def outOfBlocks (s : State) (d : Bytes) (n : Nat) : Bytes := blockBytes (cbcRun s s.chain (blocksOf d n))

section

variable (s : State) (d : Bytes) (n : Nat)

@[simp] theorem afterBlocks_data : (afterBlocks s d n).data = d.drop (16 * n) := rfl
@[simp] theorem afterBlocks_chain : (afterBlocks s d n).chain =
    lastCiphertext s.dir s.chain (blocksOf d n) (cbcRun s s.chain (blocksOf d n)) := rfl
@[simp] theorem afterBlocks_key : (afterBlocks s d n).key = s.key := rfl
@[simp] theorem afterBlocks_keyNk : (afterBlocks s d n).keyNk = s.keyNk := rfl
@[simp] theorem afterBlocks_keyDirty : (afterBlocks s d n).keyDirty = s.keyDirty := rfl
@[simp] theorem afterBlocks_ks : (afterBlocks s d n).ks = s.ks := rfl
@[simp] theorem afterBlocks_iks : (afterBlocks s d n).iks = s.iks := rfl
@[simp] theorem afterBlocks_nr : (afterBlocks s d n).nr = s.nr := rfl
@[simp] theorem afterBlocks_ksValid : (afterBlocks s d n).ksValid = s.ksValid := rfl
@[simp] theorem afterBlocks_iv : (afterBlocks s d n).iv = s.iv := rfl
@[simp] theorem afterBlocks_dir : (afterBlocks s d n).dir = s.dir := rfl
@[simp] theorem afterBlocks_state : (afterBlocks s d n).state = s.state := rfl
@[simp] theorem afterBlocks_err : (afterBlocks s d n).err = s.err := rfl
@[simp] theorem afterBlocks_sticky : (afterBlocks s d n).sticky = s.sticky := rfl
@[simp] theorem afterBlocks_ufl : (afterBlocks s d n).ufl = s.ufl := rfl
@[simp] theorem afterBlocks_inputs : (afterBlocks s d n).inputs = s.inputs := rfl
@[simp] theorem afterBlocks_responses : (afterBlocks s d n).responses = s.responses := rfl

end

/-- `Process` on the bytes `d`. -/
theorem process_eq (flush : Bool) (s : State) (d : Bytes) :
    process flush { s with data := d } =
      (outOfBlocks s d (blocksToProcess flush s.dir d.length),
        afterBlocks s d (blocksToProcess flush s.dir d.length)) := by
  have h : ∀ c bs, cbcRun { s with data := d } c bs = cbcRun s c bs := cbcRun_congr rfl rfl rfl rfl
  simp only [process, processBlocks_eq, h, outOfBlocks, afterBlocks]

theorem exec_status (h : operand.length = 0) : exec (.status operand) s = .next (respond [] s) := by
  simp [exec, execStatus, h]

theorem exec_status_length (h : operand.length ≠ 0) :
    exec (.status operand) s = .next (raiseError .length s) := by
  simp only [exec, execStatus, if_pos h]

theorem exec_loadKey_keylen {kl : BitVec 2} (h : keyLengthOf kl = none) :
    exec (.loadKey kl operand) s = .next (raiseError .keylen s) := by
  simp only [exec, execLoadKey, h]

theorem exec_loadKey_length {kl : BitVec 2} {nk : KeyLength} (hk : keyLengthOf kl = some nk)
    (h : operand.length ≠ 16 + 8 * kl.toNat) :
    exec (.loadKey kl operand) s = .next (raiseError .length s) := by
  simp only [exec, execLoadKey, hk, if_pos h]

theorem exec_loadKey {kl : BitVec 2} {nk : KeyLength} (hk : keyLengthOf kl = some nk)
    (h : operand.length = 16 + 8 * kl.toNat) :
    exec (.loadKey kl operand) s =
      .next (complete [] false
        { s with key := keyRegister nk.words operand, keyNk := nk, keyDirty := true }) := by
  simp only [exec, execLoadKey, hk, h, ne_eq, not_true, if_false]

theorem exec_loadIv (h : operand.length = 16) :
    exec (.loadIv operand) s = .next (complete [] false { s with iv := packBlock operand }) := by
  simp only [exec, execLoadIv, h, ne_eq, not_true, if_false]

theorem exec_loadIv_length (h : operand.length ≠ 16) :
    exec (.loadIv operand) s = .next (raiseError .length s) := by
  simp only [exec, execLoadIv, if_pos h]

theorem exec_init {dir : Direction} {ivp : Bool} (h : operand.length = 0) (hk : s.keyNk ≠ .none) :
    exec (.init dir ivp operand) s =
      .next (complete [] false
        { expandIfNeeded s with dir := dir, chain := initialChain ivp s, data := [], state := .idle }) := by
  simp only [exec, execInit, h, hk, ne_eq, not_true, if_false]

theorem exec_init_length {dir : Direction} {ivp : Bool} (h : operand.length ≠ 0) :
    exec (.init dir ivp operand) s = .next (raiseError .length s) := by
  simp only [exec, execInit, if_pos h]

theorem exec_init_nokey {dir : Direction} {ivp : Bool} (h : operand.length = 0) (hk : s.keyNk = .none) :
    exec (.init dir ivp operand) s = .next (raiseError .nokey s) := by
  simp only [exec, execInit, h, hk, ne_eq, not_true, if_false, if_true]

theorem exec_update (h : streaming s) :
    exec (.update operand) s =
      .next (complete (outOfBlocks s (s.data ++ operand)
          (blocksToProcess false s.dir (s.data ++ operand).length)) false
        { afterBlocks s (s.data ++ operand) (blocksToProcess false s.dir (s.data ++ operand).length) with
            state := .accum }) := by
  simp only [exec, execUpdate, not_not.mpr h, if_false, process_eq]

theorem exec_update_state (h : ¬ streaming s) :
    exec (.update operand) s = .next (raiseError .state s) := by
  simp only [exec, execUpdate, h, not_false_eq_true, if_true]

theorem finalEncrypt_eq :
    finalEncrypt operand s =
      complete (outOfBlocks s (pad (s.data ++ operand)) ((pad (s.data ++ operand)).length / 16)) false
        { afterBlocks s (pad (s.data ++ operand)) ((pad (s.data ++ operand)).length / 16) with
            state := .final } := by
  simp only [finalEncrypt, process_eq, blocksToProcess, if_true]

theorem finalDecrypt_eq :
    finalDecrypt operand s =
      complete (unpad (outOfBlocks s (s.data ++ operand) ((s.data ++ operand).length / 16))).1
        (unpad (outOfBlocks s (s.data ++ operand) ((s.data ++ operand).length / 16))).2
        { afterBlocks s (s.data ++ operand) ((s.data ++ operand).length / 16) with state := .final } := by
  simp only [finalDecrypt, process_eq, blocksToProcess, if_true]

theorem exec_final_enc (h : streaming s) (hd : s.dir = .enc) :
    exec (.final operand) s =
      .next (complete (outOfBlocks s (pad (s.data ++ operand)) ((pad (s.data ++ operand)).length / 16)) false
        { afterBlocks s (pad (s.data ++ operand)) ((pad (s.data ++ operand)).length / 16) with
            state := .final }) := by
  simp only [exec, execFinal, not_not.mpr h, if_false, hd]
  exact congrArg _ finalEncrypt_eq

theorem exec_final_dec (h : streaming s) (hd : s.dir = .dec)
    (hl : (s.data.length + operand.length) % 16 = 0) :
    exec (.final operand) s =
      .next (complete
        (unpad (outOfBlocks s (s.data ++ operand) ((s.data ++ operand).length / 16))).1
        (unpad (outOfBlocks s (s.data ++ operand) ((s.data ++ operand).length / 16))).2
        { afterBlocks s (s.data ++ operand) ((s.data ++ operand).length / 16) with state := .final }) := by
  simp only [exec, execFinal, not_not.mpr h, if_false, hd, hl, ne_eq, not_true]
  exact congrArg _ finalDecrypt_eq

theorem exec_final_state (h : ¬ streaming s) :
    exec (.final operand) s = .next (raiseError .state s) := by
  simp only [exec, execFinal, h, not_false_eq_true, if_true]

theorem exec_final_partial (h : streaming s) (hd : s.dir = .dec)
    (hl : (s.data.length + operand.length) % 16 ≠ 0) :
    exec (.final operand) s = .next (raiseError .partialBlock s) := by
  simp only [exec, execFinal, not_not.mpr h, if_false, hd, if_pos hl]

theorem exec_encBlock (h : operand.length = 16) (hv : s.ksValid = true) :
    exec (.encBlock operand) s =
      .next (complete (unpackBlock (encryptBlock s.ks s.nr.count (packBlock operand))) false s) := by
  simp [exec, execEncBlock, h, hv]

theorem exec_encBlock_length (h : operand.length ≠ 16) :
    exec (.encBlock operand) s = .next (raiseError .length s) := by
  simp only [exec, execEncBlock, if_pos h]

theorem exec_encBlock_nokey (h : operand.length = 16) (hv : s.ksValid = false) :
    exec (.encBlock operand) s = .next (raiseError .nokey s) := by
  simp [exec, execEncBlock, h, hv]

theorem exec_decBlock (h : operand.length = 16) (hv : s.ksValid = true) :
    exec (.decBlock operand) s =
      .next (complete (unpackBlock (decryptBlock s.iks s.nr.count (packBlock operand))) false s) := by
  simp [exec, execDecBlock, h, hv]

theorem exec_decBlock_length (h : operand.length ≠ 16) :
    exec (.decBlock operand) s = .next (raiseError .length s) := by
  simp only [exec, execDecBlock, if_pos h]

theorem exec_decBlock_nokey (h : operand.length = 16) (hv : s.ksValid = false) :
    exec (.decBlock operand) s = .next (raiseError .nokey s) := by
  simp [exec, execDecBlock, h, hv]

theorem exec_pad : exec (.pad operand) s = .next (complete (pad operand) false s) := rfl

theorem exec_unpad :
    exec (.unpad operand) s = .next (complete (unpad operand).1 (unpad operand).2 s) := rfl

/-- The effect of a command that succeeds on the elements other than `ERR` and `UFL`: `s'` is the state it
completes from, `out` its output and `u` its underflow bit. -/
inductive Effect (s : State) : Instr → Bytes → Bool → State → Prop
  | loadKey (kl : BitVec 2) (nk : KeyLength) (operand : Bytes) (hk : keyLengthOf kl = some nk)
      (h : operand.length = 16 + 8 * kl.toNat) :
      Effect s (.loadKey kl operand) [] false
        { s with key := keyRegister nk.words operand, keyNk := nk, keyDirty := true }
  | loadIv (operand : Bytes) (h : operand.length = 16) :
      Effect s (.loadIv operand) [] false { s with iv := packBlock operand }
  | init (dir : Direction) (ivp : Bool) (hk : s.keyNk ≠ .none) :
      Effect s (.init dir ivp []) [] false
        { expandIfNeeded s with dir := dir, chain := initialChain ivp s, data := [], state := .idle }
  | update (operand : Bytes) (h : streaming s) :
      Effect s (.update operand)
        (outOfBlocks s (s.data ++ operand) (blocksToProcess false s.dir (s.data ++ operand).length)) false
        { afterBlocks s (s.data ++ operand) (blocksToProcess false s.dir (s.data ++ operand).length) with
            state := .accum }
  | finalEnc (operand : Bytes) (h : streaming s) (hd : s.dir = .enc) :
      Effect s (.final operand)
        (outOfBlocks s (pad (s.data ++ operand)) ((pad (s.data ++ operand)).length / 16)) false
        { afterBlocks s (pad (s.data ++ operand)) ((pad (s.data ++ operand)).length / 16) with
            state := .final }
  | finalDec (operand : Bytes) (h : streaming s) (hd : s.dir = .dec)
      (hl : (s.data.length + operand.length) % 16 = 0) :
      Effect s (.final operand)
        (unpad (outOfBlocks s (s.data ++ operand) ((s.data ++ operand).length / 16))).1
        (unpad (outOfBlocks s (s.data ++ operand) ((s.data ++ operand).length / 16))).2
        { afterBlocks s (s.data ++ operand) ((s.data ++ operand).length / 16) with state := .final }
  | encBlock (operand : Bytes) (h : operand.length = 16) (hv : s.ksValid = true) :
      Effect s (.encBlock operand) (unpackBlock (encryptBlock s.ks s.nr.count (packBlock operand))) false s
  | decBlock (operand : Bytes) (h : operand.length = 16) (hv : s.ksValid = true) :
      Effect s (.decBlock operand) (unpackBlock (decryptBlock s.iks s.nr.count (packBlock operand))) false s
  | pad (operand : Bytes) : Effect s (.pad operand) (pad operand) false s
  | unpad (operand : Bytes) : Effect s (.unpad operand) (unpad operand).1 (unpad operand).2 s

/-- What no command touches before it completes: the two streams and `STICKY`. -/
theorem Effect.frame {s s' : State} {i : Instr} {out : Bytes} {u : Bool} (h : Effect s i out u s') :
    s'.inputs = s.inputs ∧ s'.responses = s.responses ∧ s'.sticky = s.sticky := by
  cases h <;> simp

/-- All that `exec` can do: answer an error, answer a `STATUS`, or complete with the command's effect. It
never faults and never refuses. -/
theorem exec_cases (i : Instr) (s : State) :
    (∃ code, code ≠ .ok ∧ exec i s = .next (raiseError code s)) ∨
    (i = .status [] ∧ exec i s = .next (respond [] s)) ∨
    (∃ out u s', Effect s i out u s' ∧ exec i s = .next (complete out u s')) := by
  cases i with
  | status operand =>
    by_cases h : operand.length = 0
    · exact .inr (.inl ⟨by simpa using h, exec_status h⟩)
    · exact .inl ⟨.length, by decide, exec_status_length h⟩
  | loadKey kl operand =>
    cases hk : keyLengthOf kl with
    | none => exact .inl ⟨.keylen, by decide, exec_loadKey_keylen hk⟩
    | some nk =>
      by_cases h : operand.length = 16 + 8 * kl.toNat
      · exact .inr (.inr ⟨_, _, _, .loadKey kl nk operand hk h, exec_loadKey hk h⟩)
      · exact .inl ⟨.length, by decide, exec_loadKey_length hk h⟩
  | loadIv operand =>
    by_cases h : operand.length = 16
    · exact .inr (.inr ⟨_, _, _, .loadIv operand h, exec_loadIv h⟩)
    · exact .inl ⟨.length, by decide, exec_loadIv_length h⟩
  | init dir ivp operand =>
    by_cases h : operand.length = 0
    · by_cases hk : s.keyNk = .none
      · exact .inl ⟨.nokey, by decide, exec_init_nokey h hk⟩
      · obtain rfl : operand = [] := by simpa using h
        exact .inr (.inr ⟨_, _, _, .init dir ivp hk, exec_init h hk⟩)
    · exact .inl ⟨.length, by decide, exec_init_length h⟩
  | update operand =>
    by_cases h : streaming s
    · exact .inr (.inr ⟨_, _, _, .update operand h, exec_update h⟩)
    · exact .inl ⟨.state, by decide, exec_update_state h⟩
  | final operand =>
    by_cases h : streaming s
    · cases hd : s.dir with
      | enc => exact .inr (.inr ⟨_, _, _, .finalEnc operand h hd, exec_final_enc h hd⟩)
      | dec =>
        by_cases hl : (s.data.length + operand.length) % 16 = 0
        · exact .inr (.inr ⟨_, _, _, .finalDec operand h hd hl, exec_final_dec h hd hl⟩)
        · exact .inl ⟨.partialBlock, by decide, exec_final_partial h hd hl⟩
    · exact .inl ⟨.state, by decide, exec_final_state h⟩
  | encBlock operand =>
    by_cases h : operand.length = 16
    · cases hv : s.ksValid with
      | true => exact .inr (.inr ⟨_, _, _, .encBlock operand h hv, exec_encBlock h hv⟩)
      | false => exact .inl ⟨.nokey, by decide, exec_encBlock_nokey h hv⟩
    · exact .inl ⟨.length, by decide, exec_encBlock_length h⟩
  | decBlock operand =>
    by_cases h : operand.length = 16
    · cases hv : s.ksValid with
      | true => exact .inr (.inr ⟨_, _, _, .decBlock operand h hv, exec_decBlock h hv⟩)
      | false => exact .inl ⟨.nokey, by decide, exec_decBlock_nokey h hv⟩
    · exact .inl ⟨.length, by decide, exec_decBlock_length h⟩
  | pad operand => exact .inr (.inr ⟨_, _, _, .pad operand, exec_pad⟩)
  | unpad operand => exact .inr (.inr ⟨_, _, _, .unpad operand, exec_unpad⟩)

/-- `exec_cases` for a next state. -/
theorem exec_next_cases {i : Instr} {s t : State} (h : exec i s = .next t) :
    (∃ code, code ≠ .ok ∧ t = raiseError code s) ∨ (i = .status [] ∧ t = respond [] s) ∨
      (∃ out u s', Effect s i out u s' ∧ t = complete out u s') := by
  obtain ⟨c, hc, he⟩ | ⟨hi, he⟩ | ⟨out, u, s', hf, he⟩ := exec_cases i s <;>
    (rw [he] at h; cases h)
  · exact .inl ⟨c, hc, rfl⟩
  · exact .inr (.inl ⟨hi, rfl⟩)
  · exact .inr (.inr ⟨out, u, s', hf, rfl⟩)

end Sys2Proof.Machine
end

