-- ==== Sys2Proof/Laws/Decode.lean ====
section
/-! SUPPORT. The fields of an encoded command word (spec/30_encoding.md R71): what each accessor reads back
from `commandWord`. -/

namespace Sys2Proof

variable (len : Nat) (kl : BitVec 2) (ivp dir : Bool) (opc : BitVec 8)

theorem commandWord_getLsbD (i : Nat) :
    (commandWord len kl ivp dir opc).getLsbD i =
      if i < 8 then opc.getLsbD i
      else if i = 8 then dir
      else if i = 9 then ivp
      else if i < 12 then kl.getLsbD (i - 10)
      else if i < 16 then false
      else (BitVec.ofNat 16 len).getLsbD (i - 16) := by
  unfold commandWord
  simp only [BitVec.getLsbD_append, BitVec.getLsbD_ofBool, BitVec.getLsbD_zero]
  by_cases h8 : i < 8
  · simp [h8]
  · obtain ⟨j, rfl⟩ : ∃ j, i = 8 + j := ⟨i - 8, by omega⟩
    rcases j with _ | _ | _ | _ | j
    · simp
    · simp
    · simp
    · simp
    · simp only [show ¬ (8 + (j + 1 + 1 + 1 + 1) < 8) by omega, show 8 + (j + 1 + 1 + 1 + 1) - 8 = j + 4 by omega,
        show ¬ (j + 4 < 1) by omega, show ¬ (j + 4 - 1 < 1) by omega, show j + 4 - 1 - 1 = j + 2 by omega,
        show ¬ (j + 2 < 2) by omega, show j + 2 - 2 = j by omega, if_false,
        show ¬ (8 + (j + 1 + 1 + 1 + 1) = 8) by omega, show ¬ (8 + (j + 1 + 1 + 1 + 1) = 9) by omega,
        show ¬ (8 + (j + 1 + 1 + 1 + 1) < 12) by omega]
      by_cases h : j < 4
      · simp only [h, show 8 + (j + 1 + 1 + 1 + 1) < 16 by omega, if_true]
      · simp only [h, show ¬ (8 + (j + 1 + 1 + 1 + 1) < 16) by omega, if_false]
        congr 1; omega

@[simp] theorem opcField_commandWord : opcField (commandWord len kl ivp dir opc) = opc.toNat := by
  unfold opcField
  congr 1
  apply BitVec.eq_of_getLsbD_eq
  intro i hi
  simp [commandWord_getLsbD, hi]

@[simp] theorem dirField_commandWord : dirField (commandWord len kl ivp dir opc) = dir := by
  rw [dirField, commandWord_getLsbD]; simp

@[simp] theorem ivpField_commandWord : ivpField (commandWord len kl ivp dir opc) = ivp := by
  rw [ivpField, commandWord_getLsbD]; simp

@[simp] theorem klField_commandWord : klField (commandWord len kl ivp dir opc) = kl := by
  apply BitVec.eq_of_getLsbD_eq
  intro i hi
  simp only [klField, BitVec.getLsbD_extractLsb', commandWord_getLsbD, hi, decide_true, Bool.true_and,
    show ¬ (10 + i < 8) by omega, show ¬ (10 + i = 8) by omega, show ¬ (10 + i = 9) by omega,
    show 10 + i < 12 by omega, if_false, if_true, show 10 + i - 10 = i by omega]

@[simp] theorem rsvField_commandWord : rsvField (commandWord len kl ivp dir opc) = 0 := by
  apply BitVec.eq_of_getLsbD_eq
  intro i hi
  simp only [rsvField, BitVec.getLsbD_extractLsb', commandWord_getLsbD, hi, decide_true, Bool.true_and,
    show ¬ (12 + i < 8) by omega, show ¬ (12 + i = 8) by omega, show ¬ (12 + i = 9) by omega,
    show ¬ (12 + i < 12) by omega, show 12 + i < 16 by omega, if_false, if_true]
  simp

theorem lenField_commandWord (h : len ≤ Config.lenMax) : lenField (commandWord len kl ivp dir opc) = len := by
  have : (commandWord len kl ivp dir opc).extractLsb' 16 16 = BitVec.ofNat 16 len := by
    apply BitVec.eq_of_getLsbD_eq
    intro i hi
    simp only [BitVec.getLsbD_extractLsb', commandWord_getLsbD, hi, decide_true, Bool.true_and,
      show ¬ (16 + i < 8) by omega, show ¬ (16 + i = 8) by omega, show ¬ (16 + i = 9) by omega,
      show ¬ (16 + i < 12) by omega, show ¬ (16 + i < 16) by omega, if_false, show 16 + i - 16 = i by omega]
  rw [lenField, this, BitVec.toNat_ofNat]
  exact Nat.mod_eq_of_lt (Nat.lt_succ_of_le h)

end Sys2Proof
end

