-- ==== Sys2Proof/Laws/PerInstr.lean ====
section
/-! SUPPORT. One family of statements about every command as syntax: its encoded word carries its own
opcode, length and fields, and 0 in `RSV` and in every field it does not use (spec/30_encoding.md R71 to
R76). -/

namespace Sys2Proof.Laws.EncodedFields

/-- The fields of the encoded word of a command that fits on the channel: opcode, `KL`, `IVP` and `DIR`. -/
def fields : Instr → Nat × BitVec 2 × Bool × Bool
  | .status _ => (0x00, 0, false, false)
  | .loadKey kl _ => (0x01, kl, false, false)
  | .loadIv _ => (0x02, 0, false, false)
  | .init dir ivp _ => (0x03, 0, ivp, decide (dir = .dec))
  | .update _ => (0x04, 0, false, false)
  | .final _ => (0x05, 0, false, false)
  | .encBlock _ => (0x06, 0, false, false)
  | .decBlock _ => (0x07, 0, false, false)
  | .pad _ => (0x08, 0, false, false)
  | .unpad _ => (0x09, 0, false, false)

/-- R71 to R76: the encoded word has the command's operand length in `LEN`, 0 in `RSV`, and the command's
`OPC`, `KL`, `IVP` and `DIR`, the last three 0 where R73 says the command does not use them. -/
def Statement (i : Instr) : Prop :=
  i.sendable = true →
    lenField (encodeWord i) = i.operand.length ∧ rsvField (encodeWord i) = 0 ∧
      (opcField (encodeWord i), klField (encodeWord i), ivpField (encodeWord i), dirField (encodeWord i)) =
        fields i

/-- `LEN` and `RSV` of a word made by `commandWord` for the command `i`. -/
theorem len_rsv {i : Instr} (kl : BitVec 2) (ivp dir : Bool) (opc : BitVec 8) (h : i.sendable = true) :
    lenField (commandWord i.operand.length kl ivp dir opc) = i.operand.length ∧
      rsvField (commandWord i.operand.length kl ivp dir opc) = 0 :=
  ⟨lenField_commandWord _ _ _ _ _ (of_decide_eq_true h), rsvField_commandWord _ _ _ _ _⟩

/-- The other fields of a word made by `commandWord`. -/
theorem opc_kl_ivp_dir (len : Nat) (kl : BitVec 2) (ivp dir : Bool) (opc : BitVec 8) :
    (opcField (commandWord len kl ivp dir opc), klField (commandWord len kl ivp dir opc),
      ivpField (commandWord len kl ivp dir opc), dirField (commandWord len kl ivp dir opc)) =
      (opc.toNat, kl, ivp, dir) := by
  simp

theorem status (operand : Bytes) : Statement (.status operand) := fun h =>
  ⟨(len_rsv _ _ _ _ h).1, (len_rsv _ _ _ _ h).2, opc_kl_ivp_dir _ _ _ _ _⟩

theorem loadKey (kl : BitVec 2) (operand : Bytes) : Statement (.loadKey kl operand) := fun h =>
  ⟨(len_rsv _ _ _ _ h).1, (len_rsv _ _ _ _ h).2, opc_kl_ivp_dir _ _ _ _ _⟩

theorem loadIv (operand : Bytes) : Statement (.loadIv operand) := fun h =>
  ⟨(len_rsv _ _ _ _ h).1, (len_rsv _ _ _ _ h).2, opc_kl_ivp_dir _ _ _ _ _⟩

theorem init (dir : Direction) (ivp : Bool) (operand : Bytes) : Statement (.init dir ivp operand) := by
  intro h
  refine ⟨(len_rsv _ _ _ _ h).1, (len_rsv _ _ _ _ h).2, (opc_kl_ivp_dir _ _ _ _ _).trans ?_⟩
  cases dir <;> rfl

theorem update (operand : Bytes) : Statement (.update operand) := fun h =>
  ⟨(len_rsv _ _ _ _ h).1, (len_rsv _ _ _ _ h).2, opc_kl_ivp_dir _ _ _ _ _⟩

theorem final (operand : Bytes) : Statement (.final operand) := fun h =>
  ⟨(len_rsv _ _ _ _ h).1, (len_rsv _ _ _ _ h).2, opc_kl_ivp_dir _ _ _ _ _⟩

theorem encBlock (operand : Bytes) : Statement (.encBlock operand) := fun h =>
  ⟨(len_rsv _ _ _ _ h).1, (len_rsv _ _ _ _ h).2, opc_kl_ivp_dir _ _ _ _ _⟩

theorem decBlock (operand : Bytes) : Statement (.decBlock operand) := fun h =>
  ⟨(len_rsv _ _ _ _ h).1, (len_rsv _ _ _ _ h).2, opc_kl_ivp_dir _ _ _ _ _⟩

theorem pad (operand : Bytes) : Statement (.pad operand) := fun h =>
  ⟨(len_rsv _ _ _ _ h).1, (len_rsv _ _ _ _ h).2, opc_kl_ivp_dir _ _ _ _ _⟩

theorem unpad (operand : Bytes) : Statement (.unpad operand) := fun h =>
  ⟨(len_rsv _ _ _ _ h).1, (len_rsv _ _ _ _ h).2, opc_kl_ivp_dir _ _ _ _ _⟩

end Sys2Proof.Laws.EncodedFields
end

