-- ==== Sys2Proof/Laws/Tables.lean ====
section
/-! SUPPORT. Facts that tie the table listings to the formulas that generate them
(spec/40_aes_tables.md R101, R105, R106, R108). -/

namespace Sys2Proof.Machine

/-- The products of R101 by the constants of the MixColumns matrices, from `x2 = d[x]`, `x4 = d[x2]`,
`x8 = d[x4]`. -/
theorem gmul_small (x : Byte) :
    gmul 2 x = xtime x ∧ gmul 3 x = xtime x ^^^ x ∧
      gmul 0x09 x = xtime (xtime (xtime x)) ^^^ x ∧
      gmul 0x0b x = xtime (xtime (xtime x)) ^^^ xtime x ^^^ x ∧
      gmul 0x0d x = xtime (xtime (xtime x)) ^^^ xtime (xtime x) ^^^ x ∧
      gmul 0x0e x = xtime (xtime (xtime x)) ^^^ xtime (xtime x) ^^^ xtime x := by
  revert x; decide +kernel

/-- A step of the walk of R108 from a nonzero `x` multiplies the two counters by 0x52 and by 5, which are
inverse to each other, so the counters stay inverse to each other. -/
theorem walkNext_eq {x : Byte} (xi : Byte) (h : x ≠ 0) :
    walkNext (x, xi) = (gmul 0x52 x, gmul 5 xi) ∧ gmul 0x52 5 = 1 := by
  have hx : ∀ x : Byte, gmul 0x52 x =
      xtime x ^^^ xtime (xtime (xtime (xtime (xtime (xtime x)) ^^^ xtime x))) := by decide +kernel
  have hxi : ∀ xi : Byte, gmul 5 xi = xi ^^^ xtime (xtime xi) := by decide +kernel
  refine ⟨?_, by decide +kernel⟩
  rw [hx, hxi, walkNext, if_neg h]

theorem rotateRight_zero (w : Word) : w.rotateRight 0 = w := by
  simp [BitVec.rotateRight, BitVec.rotateRightAux]

/-- The tables 1 to 3 are the rotations of table 0 that R105 states. -/
theorem subMix_rotate (k : Nat) (x : Byte) : subMix k x = (subMix 0 x).rotateRight (8 * k) := by
  simp [subMix, rotateRight_zero]

/-- The tables 1 to 3 are the rotations of table 0 that R106 states. -/
theorem invSubMix_rotate (k : Nat) (y : Byte) : invSubMix k y = (invSubMix 0 y).rotateRight (8 * k) := by
  simp [invSubMix, rotateRight_zero]

end Sys2Proof.Machine
end

