-- ==== Sys2Proof/Tests/Slice0.lean ====
section
/-! SUPPORT. Tests on fixed values, each expected result from the worked examples and vectors of
spec/95_test_vectors.md (named at each test), and witnesses that the hypotheses of the statements can be
met. -/

namespace Sys2Proof.Tests

set_option Elab.async false

open Sys2Proof.Machine

/-- The `n` bytes a hexadecimal numeral writes, the most significant first. -/
def hex (n v : Nat) : Bytes := (lowBytes n v).reverse

/-- The block a 32-digit hexadecimal numeral writes. -/
def block (v : BitVec 128) : Block :=
  ⟨v.extractLsb' 96 32, v.extractLsb' 64 32, v.extractLsb' 32 32, v.extractLsb' 0 32⟩

/-- The responses of a next state. -/
def responses : Host.Outcome State Fault Refusal → List (Word × Bytes)
  | .next t => t.responses.map fun r => (r.status, r.out)
  | _ => []

/-- The reason of a refusal. -/
def refusal : Host.Outcome State Fault Refusal → Option Refusal
  | .refused r => some r
  | _ => none

/-- A field of a next state. -/
def field {α : Type} (f : State → α) : Host.Outcome State Fault Refusal → Option α
  | .next t => some (f t)
  | _ => none

/-- The state after `LOAD_KEY` of the key words and an `INIT`, with a chaining value of its own. -/
def ready (nk : KeyLength) (key : List Word) (dir : Direction) (chain : Block) : State :=
  { State.reset with
    key := Vector.ofFn fun i => key.getD i 0
    keyNk := nk
    nr := nk.rounds
    ks := scheduleFile (forwardWords key nk)
    iks := scheduleFile (inverseWords key nk)
    ksValid := true
    dir := dir
    chain := chain
    state := .idle }

/-- The key of T10, `2b7e1516 28aed2a6 abf71588 09cf4f3c`. -/
def keyK : List Word := [0x2b7e1516, 0x28aed2a6, 0xabf71588, 0x09cf4f3c]

/-- The words `00010203 04050607 …` of the FIPS-197 appendix C keys (T14). -/
def keyC (n : Nat) : List Word :=
  [0x00010203, 0x04050607, 0x08090a0b, 0x0c0d0e0f, 0x10111213, 0x14151617, 0x18191a1b, 0x1c1d1e1f].take n

/-- The block of the initialization vector `000102…0f` of T17. -/
def blockIv : Block := block 0x000102030405060708090a0b0c0d0e0f

/-! ## Well-formedness: one ill-formed term for each check -/

theorem test_wf_status : (Instr.status [0x00]).wf = false := by decide
theorem test_wf_loadKey_length : (Instr.loadKey 0 (hex 24 0)).wf = false := by decide
theorem test_wf_loadKey_keylen : (Instr.loadKey 3 (hex 40 0)).wf = false := by decide
theorem test_wf_loadIv : (Instr.loadIv (hex 15 0)).wf = false := by decide
theorem test_wf_init : (Instr.init .enc false [0x00]).wf = false := by decide
theorem test_wf_encBlock : (Instr.encBlock (hex 15 0)).wf = false := by decide
theorem test_wf_decBlock : (Instr.decBlock (hex 17 0)).wf = false := by decide
theorem test_wf_too_long (operand : Bytes) (h : operand.length = 65536) :
    (Instr.update operand).wf = false ∧ (Instr.final operand).wf = false ∧
      (Instr.pad operand).wf = false ∧ (Instr.unpad operand).wf = false ∧
      (Instr.update operand).sendable = false := by
  simp [Instr.wf, Instr.sendable, Instr.operand, Config.lenMax, h]

/-! ## Decoding: the words of R71 and R72 written field by field, `LEN RSV KL IVP DIR OPC` (T50) -/

theorem test_decode_status :
    decode (0b0000000000000000_0000_00_0_0_00000000#32) [] = .command (.status []) := by decide
theorem test_decode_loadKey :
    decode (0b0000000000011000_0000_01_0_0_00000001#32) (hex 24 0x8e) = .command (.loadKey 1 (hex 24 0x8e)) := by
  decide
theorem test_decode_loadIv :
    decode (0b0000000000010000_0000_00_0_0_00000010#32) (hex 16 7) = .command (.loadIv (hex 16 7)) := by decide
theorem test_decode_init_dec :
    decode (0b0000000000000000_0000_00_0_1_00000011#32) [] = .command (.init .dec false []) := by decide
theorem test_decode_init_iv :
    decode (0b0000000000000000_0000_00_1_0_00000011#32) [] = .command (.init .enc true []) := by decide
theorem test_decode_update :
    decode (0b0000000000000010_0000_00_0_0_00000100#32) [1, 2] = .command (.update [1, 2]) := by decide
theorem test_decode_final :
    decode (0b0000000000000001_0000_00_0_0_00000101#32) [9] = .command (.final [9]) := by decide
theorem test_decode_encBlock :
    decode (0b0000000000010000_0000_00_0_0_00000110#32) (hex 16 7) = .command (.encBlock (hex 16 7)) := by
  decide
theorem test_decode_decBlock :
    decode (0b0000000000010000_0000_00_0_0_00000111#32) (hex 16 7) = .command (.decBlock (hex 16 7)) := by
  decide
theorem test_decode_pad :
    decode (0b0000000000000001_0000_00_0_0_00001000#32) [0x61] = .command (.pad [0x61]) := by decide
theorem test_decode_unpad :
    decode (0b0000000000000010_0000_00_0_0_00001001#32) [0x61, 0] = .command (.unpad [0x61, 0]) := by decide

/-- T50 corner cases, T40 rows 1, 2, 3, 10, 12, 13, and an operand of the wrong length (R63). -/
theorem test_decode_errors :
    decode 0x0000000a [] = .raises .illegal ∧ decode 0x0000f0ff [] = .raises .illegal ∧
      decode 0x00101c01 (hex 16 0) = .raises .rsvd ∧ decode 0x00000100 [] = .raises .rsvd ∧
      decode 0x00000104 [] = .raises .rsvd ∧ decode 0x00000208 [] = .raises .rsvd ∧
      decode 0x00000300 [] = .raises .rsvd ∧ decode 0x0000ff03 [] = .raises .rsvd ∧
      decode 0x00000004 [0] = .notACommand := by decide

/-- T50: the command words of the assembler column. -/
theorem test_encode_words :
    encodeWord (.status []) = 0x00000000 ∧ encodeWord (.loadKey 2 (hex 32 0)) = 0x00200801 ∧
      encodeWord (.loadIv (hex 16 0)) = 0x00100002 ∧ encodeWord (.init .dec true []) = 0x00000303 ∧
      encodeWord (.update (hex 20 0)) = 0x00140004 ∧ encodeWord (.final (hex 11 0)) = 0x000b0005 ∧
      encodeWord (.encBlock (hex 16 0)) = 0x00100006 ∧ encodeWord (.decBlock (hex 16 0)) = 0x00100007 ∧
      encodeWord (.pad (hex 15 0)) = 0x000f0008 ∧ encodeWord (.unpad (hex 16 0)) = 0x00100009 := by decide

/-- The numbering of spec/opcode_table.json: an operand shorter in the table than `LEN` is zeros. -/
theorem test_decodeTableWord :
    decodeTableWord 32 0x00100002 = some (.loadIv (hex 16 0)) ∧
      decodeTableWord 40 0xAB00010008 = some (.pad [0xAB]) ∧ decodeTableWord 32 0x0000000a = none := by decide

/-! ## Packing, field arithmetic, tables, schedule -/

/-- T1. -/
theorem test_pack :
    pack (hex 8 0x53616c7465645f5f) = [0x53616c74, 0x65645f5f] ∧
      unpack [0x53616c74, 0x65645f5f] = hex 8 0x53616c7465645f5f := by decide

/-- T7. -/
theorem test_field :
    xtime 0x57 = 0xae ∧ xtime 0xff = 0xe5 ∧ gmul 0x57 0x83 = 0xc1 ∧ gmul 0x57 0x13 = 0xfe ∧
      ginv 0x00 = 0x00 ∧ ginv 0x02 = 0x8d ∧ ginv 0x53 = 0xca := by decide +kernel

/-- T8, rows 53 and c9. -/
theorem test_tables :
    sbox 0x53 = 0xed ∧ invSbox 0x53 = 0x50 ∧ subMix 0 0x53 = 0xc1eded2c ∧ subMix 3 0x53 = 0xeded2cc1 ∧
      invSubMix 0 0x53 = 0x4de6bd46 ∧ sbox 0xc9 = 0xdd ∧ invSbox 0xc9 = 0x12 ∧ subMix 1 0xc9 = 0x7ca1dddd ∧
      invSubMix 2 0xc9 = 0xcaa6fc82 ∧ invSubMix 3 0xc9 = 0x82caa6fc := by decide +kernel

/-- T9 and R122's example. -/
theorem test_invMixWord :
    invMixWord 0x8e4da1bc = 0xdb135345 ∧ invMixWord 0xd4d1c6f8 = 0x6ea30afc ∧
      rotWord 0x09cf4f3c = 0xcf4f3c09 ∧ subWord 0xcf4f3c09 = 0x8a84eb01 := by decide +kernel

/-- T10 and T11: words of the forward and inverse schedules. -/
theorem test_schedule :
    (forwardWords keyK .k128).length = 44 ∧ (forwardWords keyK .k128).getD 4 0 = 0xa0fafe17 ∧
      (forwardWords keyK .k128).getD 43 0 = 0xb6630ca6 ∧
      (inverseWords keyK .k128).take 8 = [0xd014f9a8, 0xb6630ca6, 0xe13f0cc8, 0xc9ee2589, 0x0c7b5a63,
        0x664cfbb4, 0xb0398890, 0x1319eafe] := by decide +kernel

/-! ## The commands, one step each -/

/-- P5 step 8: a `STATUS` keeps the error of the command before; T40 row 9. -/
theorem test_status :
    responses (exec (.status []) { State.reset with
      state := .idle, dir := .dec, ksValid := true, keyNk := .k128, err := .partialBlock, sticky := true }) =
        [(0x0000172d, [])] ∧
      responses (exec (.status [0]) State.reset) = [(0x00001400, [])] := by decide +kernel

/-- P1 step 1 and P9 step 1. -/
theorem test_loadKey :
    responses (exec (.loadKey 0 (hex 16 0x2b7e151628aed2a6abf7158809cf4f3c)) State.reset) =
        [(0x00000030, [])] ∧
      field (fun t => t.key.toList) (exec (.loadKey 0 (hex 16 0x2b7e151628aed2a6abf7158809cf4f3c)) State.reset) =
        some [0x2b7e1516, 0x28aed2a6, 0xabf71588, 0x09cf4f3c, 0, 0, 0, 0] ∧
      responses (exec (.loadKey 2 (hex 32 1)) State.reset) = [(0x00000070, [])] := by decide +kernel

/-- T40 rows 4, 5, 6, 7: `KEYLEN` before `LENGTH`. -/
theorem test_loadKey_errors :
    responses (exec (.loadKey 3 []) State.reset) = [(0x00001300, [])] ∧
      responses (exec (.loadKey 3 (hex 16 0)) State.reset) = [(0x00001300, [])] ∧
      responses (exec (.loadKey 0 (hex 24 0)) State.reset) = [(0x00001400, [])] ∧
      responses (exec (.loadKey 1 (hex 16 0)) State.reset) = [(0x00001400, [])] := by decide +kernel

/-- P1 step 2. -/
theorem test_loadIv :
    field (fun t => t.iv) (exec (.loadIv (hex 16 0x000102030405060708090a0b0c0d0e0f)) State.reset) =
      some ⟨0x00010203, 0x04050607, 0x08090a0b, 0x0c0d0e0f⟩ ∧
    responses (exec (.loadIv (hex 16 1)) { State.reset with keyNk := .k128, keyDirty := true }) =
      [(0x00000030, [])] := by decide +kernel

/-- P1 step 3 with T11: the words `IKS[4..7]` an `INIT` writes, and its status. -/
theorem test_init :
    responses (exec (.init .enc true [])
        { State.reset with keyNk := .k128, keyDirty := true, iv := blockIv }) = [(0x00000029, [])] ∧
      field (fun t => (t.chain, roundKey t.iks 4, roundKey t.ks 44)) (exec (.init .enc true [])
        { State.reset with key := Vector.ofFn fun i => keyK.getD i 0, keyNk := .k128, keyDirty := true,
                           iv := blockIv }) =
        some (blockIv, ⟨0x0c7b5a63, 0x664cfbb4, 0xb0398890, 0x1319eafe⟩, Block.zero) := by decide +kernel

/-- T40 rows 8 and 14. -/
theorem test_init_errors :
    responses (exec (.init .enc false [0]) State.reset) = [(0x00001400, [])] ∧
      responses (exec (.init .enc false []) State.reset) = [(0x00001500, [])] := by decide +kernel

/-- P3 step 4: 20 bytes, one block out, 4 bytes kept. -/
theorem test_update_encrypt :
    responses (exec (.update (hex 20 0x6bc1bee22e409f96e93d7e117393172aae2d8a57)) (ready .k128 keyK .enc blockIv)) =
      [(0x0004002a, hex 16 0x7649abac8119b246cee98e9b12e9197d)] := by decide +kernel

/-- T17 row 7: decrypting, of two blocks the last is held back. -/
theorem test_update_decrypt :
    responses (exec (.update (hex 16 0))
        { ready .k128 keyK .dec Block.zero with state := .accum, data := hex 16 0 }) =
      [(0x0010002e, hex 16 0xadb637514cca3992242cd8b75dbd0ad5)] := by decide +kernel

/-- P1 step 4. -/
theorem test_final_encrypt :
    responses (exec (.final (hex 11 0x68656c6c6f20776f726c64)) (ready .k128 keyK .enc blockIv)) =
      [(0x0000002b, hex 16 0x66ee4dfaec56a71cd33cd4c5151d7d88)] := by decide +kernel

/-- P2 step 5. -/
theorem test_final_decrypt :
    responses (exec (.final [])
        { ready .k128 keyK .dec blockIv with
          state := .accum, data := hex 16 0x66ee4dfaec56a71cd33cd4c5151d7d88 }) =
      [(0x0000002f, hex 11 0x68656c6c6f20776f726c64)] := by decide +kernel

/-- T14 rows 1 to 3: the three key lengths. -/
theorem test_encBlock_128 :
    responses (exec (.encBlock (hex 16 0x00112233445566778899aabbccddeeff))
      (ready .k128 (keyC 4) .enc Block.zero)) =
        [(0x00000029, hex 16 0x69c4e0d86a7b0430d8cdb78070b4c55a)] := by decide +kernel
theorem test_encBlock_256 :
    responses (exec (.encBlock (hex 16 0x00112233445566778899aabbccddeeff))
      (ready .k256 (keyC 8) .enc Block.zero)) =
        [(0x00000069, hex 16 0x8ea2b7ca516745bfeafc49904b496089)] := by decide +kernel
theorem test_decBlock_192 :
    responses (exec (.decBlock (hex 16 0xdda97ca4864cdfe06eaf70a0ec0d7191))
      (ready .k192 (keyC 6) .enc Block.zero)) =
        [(0x00000049, hex 16 0x00112233445566778899aabbccddeeff)] := by decide +kernel

/-- P7 step 2 and T40 row 11. -/
theorem test_rawBlock_errors :
    responses (exec (.encBlock (hex 16 7)) { State.reset with keyNk := .k128, keyDirty := true }) =
        [(0x00001530, [])] ∧
      responses (exec (.encBlock (hex 15 7)) State.reset) = [(0x00001400, [])] ∧
      responses (exec (.decBlock (hex 16 7)) State.reset) = [(0x00001500, [])] := by decide +kernel

/-- T40 rows 15, 16 and 17. -/
theorem test_stream_errors :
    responses (exec (.update []) State.reset) = [(0x00001600, [])] ∧
      responses (exec (.final []) { State.reset with state := .final, ksValid := true, keyNk := .k128 }) =
        [(0x0000162b, [])] ∧
      responses (exec (.final (hex 5 0x6162636465))
        { State.reset with state := .idle, dir := .dec, ksValid := true, keyNk := .k128 }) =
        [(0x0000172d, [])] := by decide +kernel

/-- T30: lengths 0, 1, 15 and 16. -/
theorem test_pad :
    responses (exec (.pad []) State.reset) = [(0, hex 16 0x10101010101010101010101010101010)] ∧
      responses (exec (.pad [0x61]) State.reset) = [(0, hex 16 0x610f0f0f0f0f0f0f0f0f0f0f0f0f0f0f)] ∧
      responses (exec (.pad (hex 15 0x000102030405060708090a0b0c0d0e)) State.reset) =
        [(0, hex 16 0x000102030405060708090a0b0c0d0e01)] ∧
      responses (exec (.pad (hex 16 0)) State.reset) =
        [(0, hex 32 0x10101010101010101010101010101010)] := by decide +kernel

/-- T31. -/
theorem test_unpad :
    responses (exec (.unpad (hex 4 0x61626301)) State.reset) = [(0, hex 3 0x616263)] ∧
      responses (exec (.unpad (hex 7 0x61626303030303)) State.reset) = [(0, hex 4 0x61626303)] ∧
      responses (exec (.unpad [0xff, 0xff]) State.reset) = [(0x00000080, [])] ∧
      responses (exec (.unpad [0x01, 0x02]) State.reset) = [(0, [])] ∧
      responses (exec (.unpad []) State.reset) = [(0, [])] := by decide +kernel

/-- T40 row 2 as a step, and the transport rule of R63. -/
theorem test_step :
    responses (step { State.reset with inputs := [.command 0x0000f0ff []] }) = [(0x00001100, [])] ∧
      refusal (step { State.reset with inputs := [.command 0x00000000 [0]] }) = some .operandLength ∧
      responses (step (State.reset.withFetchWord 32 0x00000008)) =
        [(0, hex 16 0x10101010101010101010101010101010)] := by decide +kernel

/-! ## The assembler (T50, P1, P5) -/

theorem test_assemble :
    assemble "LOAD_KEY k128, 2b7e151628aed2a6abf7158809cf4f3c".toList =
        some [(0x00100001, hex 16 0x2b7e151628aed2a6abf7158809cf4f3c)] ∧
      assemble "INIT dec, iv".toList = some [(0x00000303, [])] ∧
      assemble "FINAL \"abcde\"".toList = some [(0x00050005, hex 5 0x6162636465)] ∧
      assemble ".word 0x00100c01, 2b7e151628aed2a6abf7158809cf4f3c".toList =
        some [(0x00100c01, hex 16 0x2b7e151628aed2a6abf7158809cf4f3c)] := by decide +kernel

/-- P5 step 1 and P6 step 6; an operand of another byte count is the model's choice (log entry 16). -/
theorem test_assemble_counts :
    assemble "UPDATE".toList = some [(0x00000004, [])] ∧ assemble "UNPAD".toList = some [(0x00000009, [])] ∧
      assemble "LOAD_IV 00".toList = some [(0x00010002, [0x00])] := by decide +kernel

theorem test_assemble_pseudo :
    (assemble ("ENCRYPT k128, 2b7e151628aed2a6abf7158809cf4f3c, 000102030405060708090a0b0c0d0e0f, " ++
      "\"hello world\"").toList).map (·.map (·.1)) =
        some [0x00100001, 0x00100002, 0x00000203, 0x000b0005] := by decide +kernel

/-! ## Witnesses: states and operands that meet the hypotheses of the statements -/

/-- A key of 128 bits loaded since reset, no `INIT` yet. -/
def loaded : State := { State.reset with keyNk := .k128, keyDirty := true }

/-- After an `INIT dec` with that key, 31 bytes accumulated: the most `DATA` holds between commands. -/
def full : State :=
  { expandIfNeeded loaded with dir := .dec, state := .accum, data := List.replicate 31 0 }

theorem loaded_inv : loaded.Inv := by constructor <;> simp [loaded, State.reset]

theorem full_isExpansion : IsExpansion full (loadedKey loaded) .k128 :=
  (expandIfNeeded_isExpansion (s := loaded) (by decide) (.inl rfl)).congr rfl rfl rfl

theorem full_inv : full.Inv where
  data_bound := by simp [full]
  data_empty := by simp [full]
  off_iff := by simp [full]
  before_init := by simp [full]
  schedule := fun _ => ⟨_, _, full_isExpansion⟩
  fresh := fun _ _ => full_isExpansion
  dirty_iff := by simp [full]
  loaded := by simp [full, loaded]
  key_fill := by simp [full, loaded, State.reset]
  error_sticky := by simp [full, loaded, State.reset]

theorem witness_StepRunsTheDecodedCommand :
    decode 0x00000000 [] = .command (.status []) ∧ decode 0x0000000a [] = .raises .illegal ∧
      State.reset.inputs = [] := by decide

theorem witness_EveryReceivedCommandGetsOneResponse :
    ([0] : Bytes).length ≠ lenField 0x00000000 ∧ ([] : Bytes).length ≠ lenField 0x00010004 ∧
      ([] : Bytes).length = lenField 0x00000000 ∧ (List.replicate 65535 (0 : Byte)).length = lenField 0xffff0004 := by
  simp only [List.length_replicate]; decide

theorem witness_OnlyDataCommandsEmit :
    (hex 16 0).length = lenField 0x00100006 ∧ reportedError State.reset 0x00100006 ≠ none ∧
      reportedError full 0x00100006 = none ∧ reportedError full 0x00100007 = none ∧
      opcField 0x00000303 < 4 := by decide +kernel

/-- Each of the seven errors, and none. -/
theorem witness_ErrorsFollowThePrecedence :
    reportedError full 0x0000f00a = some .illegal ∧ reportedError full 0x00101c01 = some .rsvd ∧
      reportedError full 0x00000c01 = some .keylen ∧ reportedError State.reset 0x00010003 = some .length ∧
      reportedError State.reset 0x00000003 = some .nokey ∧ reportedError State.reset 0x00000004 = some .state ∧
      reportedError full 0x00000005 = some .partialBlock ∧ reportedError full 0x00010005 = none ∧
      reportedError full 0x00000000 = none := by decide +kernel

/-- The longest operand the channel carries, and a command that is not well-formed. -/
theorem witness_DecodeOfEncodeIsTheCommand :
    (Instr.loadKey 2 (hex 32 0)).wf = true ∧ (Instr.loadKey 3 []).sendable = true ∧
      ∀ operand : Bytes, operand.length = 65535 → (Instr.update operand).wf = true := by
  refine ⟨by decide, by decide, fun operand h => ?_⟩
  simp [Instr.wf, Config.lenMax, h]

theorem witness_EncodeOfDecodeIsTheTransfer :
    decode 0x00180401 (hex 24 5) = .command (.loadKey 1 (hex 24 5)) := by decide

theorem witness_EveryWordIsACommandOrRaises :
    (hex 16 0).length = lenField 0x00100007 ∧ ([] : Bytes).length = lenField 0x000000ff := by decide

/-- A word of each row. -/
theorem witness_TableRowsSelectTheirCommand :
    (opcodeTable.zip [0x00000000, 0x00180401, 0x00100002, 0x00000303, 0xffff0004, 0x00010005, 0x00100006,
      0x00100007, 0x000f0008, 0x00000009]).all (fun p => p.1.matches p.2) = true := by decide

theorem witness_GinvIsTheUniqueInverse : (0x53 : Byte) ≠ 0 ∧ gmul 0x53 0xca = 1 := by decide +kernel

theorem witness_PackAndUnpackAreInverse :
    4 * 0 + 3 < (hex 4 5).length ∧ 4 * 7 + 3 < (hex 32 5).length ∧ (hex 24 5).length % 4 = 0 := by decide

/-- The last whole word of a string and the last byte of a word sequence. -/
theorem witness_PackAndUnpackAreInverse_bytes : 1 < [(5 : Word), 6].length ∧ 3 < 4 := by decide

/-- The four bytes of a word. -/
theorem witness_BytesWordsAndBlocks : byteOf 0x01020304 0 = 0x01 ∧ byteOf 0x01020304 3 = 0x04 ∧ 3 < 4 := by decide

/-- Both ends of the range of round numbers, and the ones the core uses. -/
theorem witness_BlockTransformsRunTheRounds :
    [1, 10, 12, 14].all (fun nr => decide (1 ≤ nr ∧ nr ≤ 14)) = true := by decide

theorem witness_ForwardScheduleObeysItsRecurrence :
    (keyC 4).length = KeyLength.k128.words ∧ (keyC 6).length = KeyLength.k192.words ∧
      (keyC 8).length = KeyLength.k256.words ∧ KeyLength.k256 ≠ .none ∧
      3 < (forwardWords (keyC 4) .k128).length ∧ 4 < (forwardWords (keyC 4) .k128).length ∧
      59 < (forwardWords (keyC 8) .k256).length := by decide +kernel

theorem witness_InverseScheduleReordersAndMixes :
    (forwardWords (keyC 4) .k128).length = 4 * (10 + 1) ∧ (forwardWords (keyC 8) .k256).length = 4 * (14 + 1) := by
  decide +kernel

theorem witness_BlockTransformsAreInverse : IsExpansion full (loadedKey loaded) .k128 := full_isExpansion

theorem witness_LoadKeyCompletes :
    (0 : BitVec 2) ≠ 3 ∧ (hex 16 5).length = 16 + 8 * (0 : BitVec 2).toNat ∧ (2 : BitVec 2) ≠ 3 ∧
      (hex 32 5).length = 16 + 8 * (2 : BitVec 2).toNat := by decide

/-- With a key to expand, with a dirty schedule, and with a clean one. -/
theorem witness_InitCompletes :
    ({ full with keyDirty := true } : State).keyDirty = true ∧
    loaded.keyNk ≠ .none ∧ loaded.ksValid = false ∧ full.keyNk ≠ .none ∧ full.ksValid = true ∧
      full.keyDirty = false := by decide +kernel

theorem witness_UpdateCompletes : full.state = .accum ∧ (ready .k128 keyK .enc blockIv).state = .idle := by
  decide +kernel

theorem witness_FinalEncryptCompletes :
    (ready .k128 keyK .enc blockIv).state = .idle ∧ (ready .k128 keyK .enc blockIv).dir = .enc := by decide +kernel

theorem witness_FinalDecryptCompletes :
    full.state = .accum ∧ full.dir = .dec ∧ (full.data.length + [(0 : Byte)].length) % 16 = 0 := by decide +kernel

theorem witness_RawBlockCommandsComplete : full.ksValid = true := by decide +kernel

/-- Each length rule broken by one byte, and `KL = 3`. -/
theorem witness_IllFormedCommandsRaise :
    [Instr.status [0], .loadKey 3 (hex 40 0), .loadKey 0 (hex 15 0), .loadKey 2 (hex 33 0), .loadIv (hex 17 0),
      .init .dec true [0], .encBlock (hex 15 0), .decBlock []].all (fun i => i.sendable && !i.wf) = true := by
  decide

/-- Each clause: no key; no schedule; the two states in which a stream is not accepted; a partial block. -/
theorem witness_CommandsTrapOnTheState :
    State.reset.keyNk = .none ∧ loaded.ksValid = false ∧ (hex 16 0).length = 16 ∧ State.reset.state = .off ∧
      ({ full with state := .final } : State).state = .final ∧ full.state = .accum ∧ full.dir = .dec ∧
      (full.data.length + ([] : Bytes).length) % 16 ≠ 0 := by decide +kernel

theorem witness_UnpadValidatesNothing :
    ([7, 1] : Bytes).length = ([8, 1] : Bytes).length ∧ ([7, 1] : Bytes).getLastD 0 = ([8, 1] : Bytes).getLastD 0 ∧
      full.state = .accum ∧ full.dir = .dec ∧ (full.data.length + [(0 : Byte)].length) % 16 = 0 := by
  decide +kernel

theorem witness_EveryStepKeepsTheInvariant :
    ({ loaded with inputs := [.command 0x00000008 []] } : State).Inv ∧
      ∃ t, step { loaded with inputs := [.command 0x00000008 []] } = .next t := by
  refine ⟨?_, _, rfl⟩
  constructor <;> simp [loaded, State.reset]

theorem witness_StatusWordHasItsLayout : full.Inv ∧ full.data.length = Config.dataCap := ⟨full_inv, by decide +kernel⟩

theorem witness_InitLeavesTheScheduleOfTheKey :
    loaded.Inv ∧ loaded.keyNk ≠ .none ∧ full.Inv ∧ full.keyNk ≠ .none :=
  ⟨loaded_inv, by decide, full_inv, by decide +kernel⟩

/-- Each command, with and without an error. -/
theorem witness_StateTransitions :
    (∃ t, exec (.init .dec true []) loaded = .next t) ∧ (∃ t, exec (.init .dec true []) State.reset = .next t) ∧
      (∃ t, exec (.update []) full = .next t) ∧ (∃ t, exec (.update []) loaded = .next t) ∧
      (∃ t, exec (.final [0]) full = .next t) ∧ (∃ t, exec (.final []) full = .next t) ∧
      (∃ t, exec (.final []) loaded = .next t) ∧ (∃ t, exec (.pad []) loaded = .next t) ∧
      decode 0x0000000a [] = .raises .illegal ∧
      (∃ t, step { loaded with inputs := [.command 0x0000000a []] } = .next t) ∧
      ∃ t, step { loaded with inputs := [.reset] } = .next t :=
  ⟨⟨_, exec_init rfl (by decide)⟩, ⟨_, exec_init_nokey rfl rfl⟩, ⟨_, exec_update (.inr rfl)⟩,
    ⟨_, exec_update_state (by decide)⟩, ⟨_, exec_final_dec (.inr rfl) rfl (by decide +kernel)⟩,
    ⟨_, exec_final_partial (.inr rfl) rfl (by decide +kernel)⟩, ⟨_, exec_final_state (by decide)⟩, ⟨_, rfl⟩, by decide,
    ⟨_, rfl⟩, ⟨_, rfl⟩⟩

theorem witness_ElementsHaveTheirWriters :
    (∃ t, exec (.pad []) loaded = .next t) ∧ (Instr.pad []).mnemonic ∉ ["LOAD_KEY", "INIT", "LOAD_IV", "UPDATE", "FINAL"] :=
  ⟨⟨_, rfl⟩, by decide⟩

theorem witness_StickyIsClearedOnlyByReset :
    ∃ t, Host.Core.run Sys2Proof.core 1
        { State.reset with sticky := true, inputs := [.command 0x00000008 []] } = .next t ∧
      HostInput.reset ∉ [HostInput.command 0x00000008 []] := ⟨_, rfl, by decide⟩

/-- A successful `STATUS`, an error, and an underflow. -/
theorem witness_ErrAndUflDescribeTheLastCommand :
    field (fun t => (t.err, t.ufl)) (exec (.status []) State.reset) = some (.ok, false) ∧
      field (fun t => (t.err, t.ufl)) (exec (.update []) State.reset) = some (.state, false) ∧
      field (fun t => (t.err, t.ufl)) (exec (.unpad [5]) State.reset) = some (.ok, true) := by decide +kernel

theorem witness_EveryInputSequenceIsAnswered :
    ∀ cmd operand, HostInput.command cmd operand ∈
        [HostInput.command 0x00010005 [7], .reset, .command 0x0000000a []] → operand.length = lenField cmd := by
  simp only [List.mem_cons, HostInput.command.injEq, List.not_mem_nil, reduceCtorEq]
  rintro cmd operand (⟨rfl, rfl⟩ | h | ⟨rfl, rfl⟩ | h)
  · decide
  · exact absurd h id
  · decide
  · exact absurd h id

theorem witness_ResponsesDoNotRevealKeyOrIv :
    (∃ t, exec (.init .enc true []) loaded = .next t) ∧
      ∃ t, exec (.init .enc true []) { loaded with key := Vector.replicate 8 1, iv := blockIv } = .next t :=
  ⟨⟨_, exec_init rfl (by decide)⟩, ⟨_, exec_init rfl (by decide)⟩⟩

/-- Another schedule, chaining value and accumulator, with the same number of bytes in it. -/
theorem witness_ResponsesDoNotRevealKeyOrIv_stream :
    (Instr.pad []).mnemonic ∈ ["STATUS", "LOAD_KEY", "LOAD_IV", "INIT", "PAD", "UNPAD"] ∧
      (List.replicate 31 (1 : Byte)).length = full.data.length ∧ (∃ t, exec (.pad []) full = .next t) ∧
      ∃ t, exec (.pad []) { full with
        key := Vector.replicate 8 1, ks := Vector.replicate 60 1, iks := Vector.replicate 60 2, iv := blockIv,
        chain := blockIv, data := List.replicate 31 1 } = .next t :=
  ⟨by decide, by decide +kernel, ⟨_, rfl⟩, ⟨_, rfl⟩⟩

theorem witness_ErrorsDoNotDisturbTheNextCommand :
    Errored .illegal full (raiseError .illegal full) ∧ (Instr.update []).mnemonic ≠ "STATUS" ∧
      (∃ t, exec (.update []) full = .next t) ∧ ∃ t, exec (.update []) (raiseError .illegal full) = .next t :=
  ⟨rfl, by decide, ⟨_, exec_update (.inr rfl)⟩, ⟨_, exec_update (.inr rfl)⟩⟩

theorem witness_RepeatedCommandsAreIdempotent :
    (Instr.pad []).mnemonic ≠ "UPDATE" ∧ (Instr.pad []).mnemonic ≠ "FINAL" ∧
      ∃ t u, exec (.pad []) State.reset = .next t ∧ exec (.pad []) t = .next u :=
  ⟨by decide, by decide, _, _, rfl, rfl⟩

/-- Fewer than 16 bytes decrypting, 16 and more decrypting, and encrypting. -/
theorem witness_UpdateHoldsBackTheLastBlock :
    full.state = .accum ∧ full.dir = .dec ∧ 16 ≤ (full.data ++ ([] : Bytes)).length ∧
      (ready .k128 keyK .dec blockIv).state = .idle ∧ (ready .k128 keyK .dec blockIv).dir = .dec ∧
      ((ready .k128 keyK .dec blockIv).data ++ hex 15 0).length < 16 ∧
      (ready .k128 keyK .enc blockIv).dir = .enc := by decide +kernel

theorem witness_UpdatesCanBeSplit : full.state = .accum := by decide +kernel

/-- For both statements about splitting a final command. -/
theorem witness_FinalCanBeSplit :
    full.state = .accum ∧ (full.data.length + ([0] ++ hex 16 0 : Bytes).length) % 16 = 0 ∧
      (ready .k128 keyK .enc blockIv).dir = .enc := by decide +kernel

theorem witness_FinalCanBeSplitDespiteUnderflow :
    full.state = .accum ∧ (full.data.length + ([0] ++ hex 16 0 : Bytes).length) % 16 = 0 := by decide +kernel

theorem witness_DecryptionReturnsTheMessage : full.Inv ∧ full.keyNk ≠ .none := ⟨full_inv, by decide +kernel⟩

/-- Three-block streams that differ at the first block alone. -/
theorem witness_CiphertextsDiverge :
    let s : State := { full with dir := .enc }
    let ins := [Block.zero, Block.zero, Block.zero]
    let ins' := [⟨1, 0, 0, 0⟩, Block.zero, Block.zero]
    IsExpansion s (loadedKey loaded) .k128 ∧ s.dir = .enc ∧ ins.length = ins'.length ∧
      CbcEquations s blockIv ins (cbcRun s blockIv ins) ∧ CbcEquations s blockIv ins' (cbcRun s blockIv ins') ∧
      0 < ins.length ∧ ins.getD 0 Block.zero ≠ ins'.getD 0 Block.zero ∧
      ins.getD 1 Block.zero = ins'.getD 1 Block.zero ∧ ins.getD 2 Block.zero = ins'.getD 2 Block.zero :=
  ⟨full_isExpansion.congr rfl rfl rfl, rfl, rfl, cbcRun_equations _ _ _, cbcRun_equations _ _ _, by decide,
    by decide, by decide, by decide⟩

/-- Three-block streams that differ at the first two blocks and meet at the third. -/
theorem witness_CiphertextsDivergeAtEveryEqualBlock :
    let s : State := { full with dir := .enc }
    let ins := [Block.zero, Block.zero, Block.zero]
    let ins' := [⟨1, 0, 0, 0⟩, ⟨2, 0, 0, 0⟩, Block.zero]
    IsExpansion s (loadedKey loaded) .k128 ∧ s.dir = .enc ∧ ins.length = ins'.length ∧
      CbcEquations s blockIv ins (cbcRun s blockIv ins) ∧ CbcEquations s blockIv ins' (cbcRun s blockIv ins') ∧
      0 < ins.length ∧ ins.getD 0 Block.zero ≠ ins'.getD 0 Block.zero ∧
      2 < ins.length ∧ ins.getD 2 Block.zero = ins'.getD 2 Block.zero :=
  ⟨full_isExpansion.congr rfl rfl rfl, rfl, rfl, cbcRun_equations _ _ _, cbcRun_equations _ _ _, by decide,
    by decide, by decide, by decide⟩

theorem witness_LoadKeyTakesEffectAtInit :
    (∃ t, exec (.loadKey 0 (hex 16 5)) full = .next t ∧ t.err = .ok ∧
      (∃ v, exec (.update []) t = .next v) ∧ ∃ v, exec (.encBlock (hex 16 0)) t = .next v) ∧
    (∃ u, exec (.update []) full = .next u) ∧ ∃ u, exec (.encBlock (hex 16 0)) full = .next u :=
  ⟨⟨_, exec_loadKey rfl (by decide), rfl, ⟨_, exec_update (.inr rfl)⟩, ⟨_, exec_encBlock (by decide) (by decide +kernel)⟩⟩,
    ⟨_, exec_update (.inr rfl)⟩, ⟨_, exec_encBlock (by decide) (by decide +kernel)⟩⟩

theorem witness_LoadIvTakesEffectAtInit :
    ∃ t, exec (.loadIv (hex 16 5)) full = .next t ∧ t.err = .ok ∧ (∃ v, exec (.update []) t = .next v) ∧
      ∃ u, exec (.init .enc true []) t = .next u ∧ u.err = .ok :=
  ⟨_, exec_loadIv (by decide), rfl, ⟨_, exec_update (.inr rfl)⟩, _, exec_init rfl (by decide +kernel), rfl⟩

theorem witness_PseudoCommandsCarryTheMessage :
    (2 : BitVec 2) ≠ 3 ∧ (hex 32 0).length = 16 + 8 * (2 : BitVec 2).toNat ∧ (hex 16 0).length = 16 ∧
      ([] : Bytes).length ≤ Config.lenMax := by decide

end Sys2Proof.Tests
end

section
/-! Bytes, words and blocks (spec/00_scope.md R9; spec/20_memory.md R51, R52; R181): a byte of a word as a bit
field and as a number, the word of four bytes as a number, and the block of 16 bytes. -/

namespace Sys2Proof.Machine

/-- R9's bit field: byte `k` is the eight bits from bit `24 - 8k` up. -/
theorem byteOf_eq_extractLsb' (v : Word) (k : Nat) : byteOf v k = v.extractLsb' (24 - 8 * k) 8 :=
  BitVec.setWidth_ushiftRight_eq_extractLsb

theorem toNat_byteOf (v : Word) (k : Nat) : (byteOf v k).toNat = v.toNat / 2 ^ (24 - 8 * k) % 256 := by
  rw [byteOf_eq_extractLsb', BitVec.extractLsb'_toNat, Nat.shiftRight_eq_div_pow]

/-- The four shifted bytes of R9 do not overlap, so their disjunction is a concatenation. -/
theorem wordOf_eq_append (b0 b1 b2 b3 : Byte) : wordOf b0 b1 b2 b3 = b0 ++ b1 ++ b2 ++ b3 := by
  ext i hi
  simp only [wordOf, BitVec.getElem_or, BitVec.getElem_shiftLeft, BitVec.getElem_setWidth]
  grind

/-- The word read as a number is the four bytes as its digits in base 256, byte 0 the most significant. -/
theorem toNat_wordOf (b0 b1 b2 b3 : Byte) : (wordOf b0 b1 b2 b3).toNat =
    16777216 * b0.toNat + 65536 * b1.toNat + 256 * b2.toNat + b3.toNat := by
  have h (w : Nat) (x : BitVec w) (b : Byte) : (x ++ b).toNat = 256 * x.toNat + b.toNat := by
    rw [BitVec.toNat_append, ← Nat.shiftLeft_add_eq_or_of_lt b.isLt, Nat.shiftLeft_eq, Nat.mul_comm]
  rw [wordOf_eq_append, h, h, h]
  omega

/-- R52 on one word: each byte is a digit of the word's number in base 256. -/
@[simp] theorem wordBytes_wordOf (b0 b1 b2 b3 : Byte) : wordBytes (wordOf b0 b1 b2 b3) = [b0, b1, b2, b3] := by
  simp only [wordBytes, List.cons.injEq, ← BitVec.toNat_inj, toNat_byteOf, toNat_wordOf, and_true]
  omega

/-- R52 on a block: its bytes are those of its four words in order. -/
theorem unpackBlock_eq_wordBytes (b : Block) :
    unpackBlock b = wordBytes b.w0 ++ (wordBytes b.w1 ++ (wordBytes b.w2 ++ wordBytes b.w3)) := rfl

/-- Settles O58: R9's field and number of a word, `pack` and `unpack` of a block word by word, and the
definition of the exclusive or. -/
theorem bytesWordsAndBlocks : Obligations.BytesWordsAndBlocks := by
  refine ⟨fun v k _ => byteOf_eq_extractLsb' v k, toNat_wordOf, ?_, fun _ _ => rfl⟩
  intro b0 b1 b2 b3 b4 b5 b6 b7 b8 b9 b10 b11 b12 b13 b14 b15 x b
  refine ⟨rfl, ?_⟩
  simp [b, x, unpackBlock_eq_wordBytes]

end Sys2Proof.Machine
end

section
/-! Reset, steps and runs (spec/10_state.md R41; spec/20_memory.md R57, R63; spec/70_reset_and_hazards.md
R240): the reset state, what one step answers for each kind of input, the converse as one case split, and a run
peeled by its first step. -/

namespace Sys2Proof.Machine

/-- Settles O1: the reset state is the table of R41 read field by field. -/
theorem resetStateHasTheTableValues : Obligations.ResetStateHasTheTableValues := by
  refine ⟨fun i => Vector.getElem_replicate _, rfl, rfl, rfl, fun i => Vector.getElem_replicate _,
    fun i => Vector.getElem_replicate _, ?_⟩
  decide

theorem step_of_no_input {s : State} (h : s.inputs = []) : step s = .next s := by
  simp only [step, takeInput, h]

theorem step_of_reset {s : State} {rest : List HostInput} (h : s.inputs = .reset :: rest) :
    step s = .next (hardReset { s with inputs := rest }) := by
  simp only [step, takeInput, h]

section
variable {s : State} {cmd : Word} {operand : Bytes} {rest : List HostInput}
  (hs : s.inputs = .command cmd operand :: rest)
include hs

theorem step_of_command {i : Instr} (hd : decode cmd operand = .command i) :
    step s = exec i { s with inputs := rest } := by
  simp only [step, takeInput, hs, hd]

theorem step_of_raises {code : ErrCode} (hd : decode cmd operand = .raises code) :
    step s = .next (raiseError code { s with inputs := rest }) := by
  simp only [step, takeInput, hs, hd]

theorem step_of_notACommand (hd : decode cmd operand = .notACommand) :
    step s = .refused .operandLength := by
  simp only [step, takeInput, hs, hd]

end

/-- All that a step with a next state can do: wait, reset, execute the decoded command, or raise the error of a
word the decoder rejects. The last three act on the state with the input taken off. -/
theorem step_next_cases {s t : State} (h : step s = .next t) :
    (s.inputs = [] ∧ t = s) ∨
    (∃ rest, s.inputs = .reset :: rest ∧ t = hardReset { s with inputs := rest }) ∨
    (∃ cmd operand rest i, s.inputs = .command cmd operand :: rest ∧ decode cmd operand = .command i ∧
      exec i { s with inputs := rest } = .next t) ∨
    (∃ cmd operand rest code, s.inputs = .command cmd operand :: rest ∧ decode cmd operand = .raises code ∧
      t = raiseError code { s with inputs := rest }) := by
  match hs : s.inputs with
  | [] =>
    rw [step_of_no_input hs] at h
    cases h
    exact .inl ⟨rfl, rfl⟩
  | .reset :: rest =>
    rw [step_of_reset hs] at h
    cases h
    exact .inr (.inl ⟨rest, rfl, rfl⟩)
  | .command cmd operand :: rest =>
    cases hd : decode cmd operand with
    | command i =>
      rw [step_of_command hs hd] at h
      exact .inr (.inr (.inl ⟨cmd, operand, rest, i, rfl, hd, h⟩))
    | raises code =>
      rw [step_of_raises hs hd] at h
      cases h
      exact .inr (.inr (.inr ⟨cmd, operand, rest, code, rfl, hd, rfl⟩))
    | notACommand =>
      rw [step_of_notACommand hs hd] at h
      cases h

/-- A run that reaches a state is a step followed by the rest of the run. -/
theorem run_succ_eq_next {n : Nat} {s t : State} (h : Host.Core.run Sys2Proof.core (n + 1) s = .next t) :
    ∃ s', step s = .next s' ∧ Host.Core.run Sys2Proof.core n s' = .next t := by
  simp only [Host.Core.run] at h
  split at h
  · next s' hs => exact ⟨s', hs, h⟩
  · cases h
  · cases h

end Sys2Proof.Machine
end

section
/-! The writers of each state element (spec/10_state.md R21 to R37): which elements a command leaves
unchanged, the transitions of `STATE`, and the lifetimes of `STICKY`, `ERR` and `UFL`. -/

namespace Sys2Proof.Machine

variable {s s' t : State} {i : Instr} {out : Bytes} {u : Bool}

/-- The elements of the key and its schedule that a command completes without changing (R21 to R27, R30). -/
theorem Effect.key_frame (h : Effect s i out u s') :
    (i.mnemonic ≠ "LOAD_KEY" → s'.key = s.key ∧ s'.keyNk = s.keyNk) ∧
    (i.mnemonic ≠ "LOAD_KEY" → i.mnemonic ≠ "INIT" → s'.keyDirty = s.keyDirty) ∧
    (i.mnemonic ≠ "INIT" → s'.ks = s.ks ∧ s'.iks = s.iks ∧ s'.nr = s.nr ∧ s'.ksValid = s.ksValid ∧
      s'.dir = s.dir) := by
  cases h <;> simp [Instr.mnemonic]

/-- The elements of the stream that a command completes without changing (R28, R29, R32, R34). -/
theorem Effect.stream_frame (h : Effect s i out u s') :
    (i.mnemonic ≠ "LOAD_IV" → s'.iv = s.iv) ∧
    (i.mnemonic ≠ "INIT" → i.mnemonic ≠ "UPDATE" → i.mnemonic ≠ "FINAL" →
      s'.chain = s.chain ∧ s'.data = s.data ∧ s'.state = s.state) := by
  cases h <;> simp [Instr.mnemonic]

/-- No command touches the inputs to come. -/
theorem exec_inputs (h : exec i s = .next t) : t.inputs = s.inputs := by
  obtain ⟨code, -, rfl⟩ | ⟨-, rfl⟩ | ⟨out, u, s', hf, rfl⟩ := exec_next_cases h
  · rfl
  · rfl
  · obtain ⟨hin, -, -⟩ := hf.frame
    exact hin

/-- Settles O40: an error and a `STATUS` write none of these elements, and a command that completes writes
those of its effect. -/
theorem elementsHaveTheirWriters : Obligations.ElementsHaveTheirWriters := by
  intro i s t h
  have hin := exec_inputs h
  obtain ⟨code, -, rfl⟩ | ⟨-, rfl⟩ | ⟨out, u, s', he, rfl⟩ := exec_next_cases h
  · simp
  · simp
  · obtain ⟨hkey, hdirty, hsched⟩ := he.key_frame
    obtain ⟨hiv, hstream⟩ := he.stream_frame
    refine ⟨hkey, hdirty, hsched, hiv, fun hi hu hf => ?_, hin⟩
    obtain ⟨hchain, hdata, -⟩ := hstream hi hu hf
    exact ⟨hchain, hdata⟩

/-- R34's last row for commands: only `INIT`, `UPDATE` and `FINAL` write `STATE`. -/
theorem exec_state_eq (h : exec i s = .next t) (hi : i.mnemonic ≠ "INIT") (hu : i.mnemonic ≠ "UPDATE")
    (hf : i.mnemonic ≠ "FINAL") : t.state = s.state := by
  obtain ⟨code, -, rfl⟩ | ⟨-, rfl⟩ | ⟨out, u, s', he, rfl⟩ := exec_next_cases h
  · rfl
  · rfl
  · obtain ⟨-, -, hst⟩ := he.stream_frame.2 hi hu hf
    exact hst

/-- R34 for `INIT`. -/
theorem exec_init_state {dir : Direction} {ivp : Bool} {operand : Bytes}
    (h : exec (.init dir ivp operand) s = .next t) :
    (t.err = .ok → t.state = .idle) ∧ (t.err ≠ .ok → t.state = s.state) := by
  obtain ⟨code, hc, rfl⟩ | ⟨hi, -⟩ | ⟨out, u, s', he, rfl⟩ := exec_next_cases h
  · exact ⟨fun h => absurd h hc, fun _ => rfl⟩
  · cases hi
  · cases he
    exact ⟨fun _ => rfl, fun h => absurd rfl h⟩

/-- R34 for `UPDATE`. -/
theorem exec_update_transition {operand : Bytes} (h : exec (.update operand) s = .next t) :
    if streaming s then t.state = .accum ∧ t.err = .ok else Errored .state s t := by
  split
  · next hs =>
    rw [exec_update hs] at h
    cases h
    exact ⟨rfl, rfl⟩
  · next hs =>
    rw [exec_update_state hs] at h
    cases h
    exact raiseError_errored _ _

/-- R34 for `FINAL`; in `IDLE` and `ACCUM` its one error is that of a partial block. -/
theorem exec_final_transition {operand : Bytes} (h : exec (.final operand) s = .next t) :
    if streaming s then
      (t.err = .ok → t.state = .final) ∧ (t.err ≠ .ok → Errored .partialBlock s t)
    else Errored .state s t := by
  split
  · next hs =>
    cases hd : s.dir with
    | enc =>
      rw [exec_final_enc hs hd] at h
      cases h
      exact ⟨fun _ => rfl, fun h => absurd rfl h⟩
    | dec =>
      by_cases hl : (s.data.length + operand.length) % 16 = 0
      · rw [exec_final_dec hs hd hl] at h
        cases h
        exact ⟨fun _ => rfl, fun h => absurd rfl h⟩
      · rw [exec_final_partial hs hd hl] at h
        cases h
        exact ⟨fun h => absurd h (by simp), fun _ => raiseError_errored _ _⟩
  · next hs =>
    rw [exec_final_state hs] at h
    cases h
    exact raiseError_errored _ _

/-- Settles O39, command by command: `INIT`, `UPDATE` and `FINAL` have transitions of their own, every other
command keeps `STATE`. -/
theorem stateTransitions : Obligations.StateTransitions := by
  refine ⟨⟨rfl, rfl, rfl, rfl⟩, fun i s t h => ?_, fun s t rest cmd operand code hd h => ?_,
    fun s t rest h => ?_⟩
  · have hkeep := exec_state_eq h
    cases i with
    | init dir ivp operand => exact exec_init_state h
    | update operand => exact exec_update_transition h
    | final operand => exact exec_final_transition h
    | _ => exact hkeep (by simp [Instr.mnemonic]) (by simp [Instr.mnemonic]) (by simp [Instr.mnemonic])
  · rw [step_of_raises rfl hd] at h
    cases h
    rfl
  · rw [step_of_reset rfl] at h
    cases h
    rfl

/-- No command clears `STICKY` (R36). -/
theorem exec_sticky (h : exec i s = .next t) (hs : s.sticky = true) : t.sticky = true := by
  obtain ⟨code, -, rfl⟩ | ⟨-, rfl⟩ | ⟨out, u, s', hf, rfl⟩ := exec_next_cases h
  · rfl
  · exact hs
  · obtain ⟨-, -, hst⟩ := hf.frame
    exact hst.trans hs

/-- A step with no reset event pending keeps `STICKY` and leaves none pending. -/
theorem step_sticky (h : step s = .next t) (hr : HostInput.reset ∉ s.inputs) (hs : s.sticky = true) :
    t.sticky = true ∧ HostInput.reset ∉ t.inputs := by
  obtain ⟨-, rfl⟩ | ⟨rest, hin, -⟩ | ⟨_, _, rest, i, hin, -, hi⟩ | ⟨_, _, rest, code, hin, -, rfl⟩ :=
    step_next_cases h
  · exact ⟨hs, hr⟩
  · exact absurd (hin ▸ List.mem_cons_self) hr
  · rw [hin, List.mem_cons, not_or] at hr
    exact ⟨exec_sticky hi hs, exec_inputs hi ▸ hr.2⟩
  · rw [hin, List.mem_cons, not_or] at hr
    exact ⟨rfl, hr.2⟩

/-- Settles O41, by induction on the number of steps. -/
theorem stickyIsClearedOnlyByReset : Obligations.StickyIsClearedOnlyByReset := by
  intro n
  induction n with
  | zero =>
    intro s t h _ hs
    cases h
    exact hs
  | succ n ih =>
    intro s t h hr hs
    obtain ⟨s', hstep, hrun⟩ := run_succ_eq_next h
    obtain ⟨hs', hr'⟩ := step_sticky hstep hr hs
    exact ih s' t hrun hr' hs'

/-- R37: the commands that set `UFL` are the two that unpad. -/
theorem Effect.underflow (h : Effect s i out u s') (hu : u = true) :
    (∃ op, i = .unpad op) ∨ (∃ op, i = .final op ∧ s.dir = .dec) := by
  cases h with
  | unpad operand => exact .inl ⟨operand, rfl⟩
  | finalDec operand _ hd _ => exact .inr ⟨operand, rfl, hd⟩
  | _ => exact absurd hu (by simp)

/-- Settles O42: an error leaves `UFL = 0`, a completed command leaves `ERR = 0` and the underflow bit of its
effect. -/
theorem errAndUflDescribeTheLastCommand : Obligations.ErrAndUflDescribeTheLastCommand := by
  intro i s t h
  split
  · next hi =>
    subst hi
    rw [exec_status rfl] at h
    cases h
    exact ⟨rfl, rfl⟩
  · next hi =>
    obtain ⟨code, -, rfl⟩ | ⟨hst, -⟩ | ⟨out, u, s', hf, rfl⟩ := exec_next_cases h
    · exact ⟨fun _ => raiseError_errored _ _, fun h => absurd h (by simp)⟩
    · exact absurd hst hi
    · exact ⟨fun h => absurd rfl h, fun hu => ⟨rfl, hf.underflow hu⟩⟩

end Sys2Proof.Machine
end

section
/-! The invariant of the reachable states (spec/10_state.md R21 to R37): it holds at reset, and each effect of a
command, an error, a reset event and waiting keep it. -/

namespace Sys2Proof.Machine

variable {s s' t : State} {i : Instr} {out : Bytes} {u : Bool}

/-! ### The lengths `DATA` is left with (R33) -/

/-- A non-flushing `Process` holds back fewer than 16 bytes encrypting and fewer than 32 decrypting. -/
theorem length_drop_blocksToProcess_le (dir : Direction) (d : Bytes) :
    (d.drop (16 * blocksToProcess false dir d.length)).length ≤ if dir = .enc then 15 else 31 := by
  rw [List.length_drop]
  cases dir <;> simp [blocksToProcess, minBuf] <;> omega

/-- A flushing `Process` of whole blocks leaves nothing. -/
theorem drop_all_blocks {d : Bytes} (h : d.length % 16 = 0) : d.drop (16 * (d.length / 16)) = [] := by
  rw [List.drop_eq_nil_iff]
  omega

/-- R195: a padded string is a whole number of blocks. -/
theorem pad_length_mod (x : Bytes) : (pad x).length % 16 = 0 := by
  simp only [pad, padCount, List.length_append, List.length_replicate]
  omega

/-! ### The key register (R21, R75) -/

theorem keyLengthOf_ne_none {kl : BitVec 2} {nk : KeyLength} (h : keyLengthOf kl = some nk) : nk ≠ .none := by
  unfold keyLengthOf at h
  split at h <;> cases h <;> decide

/-- `LOAD_KEY` writes 0 from word `NK` on. -/
theorem keyRegister_fill (nk : Nat) (operand : Bytes) (i : Fin 8) (h : nk ≤ i.val) :
    (keyRegister nk operand)[i] = 0 := by
  simp [keyRegister, Nat.not_lt.mpr h]

/-! ### What the invariant says of the schedule (R27, R128) -/

/-- A stream is accepted only with a valid schedule. -/
theorem State.Inv.ksValid_of_streaming (h : s.Inv) (hs : streaming s) : s.ksValid = true := by
  rw [← Bool.not_eq_false, ← h.off_iff]
  rcases hs with hs | hs <;> simp [hs]

/-- R128: whether or not it expands, `ExpandIfNeeded` leaves the expansion of `KEY`. -/
theorem State.Inv.expandIfNeeded_isExpansion (h : s.Inv) (hk : s.keyNk ≠ .none) :
    IsExpansion (expandIfNeeded s) (loadedKey s) s.keyNk := by
  by_cases hn : s.ksValid = false ∨ s.keyDirty = true
  · exact Machine.expandIfNeeded_isExpansion hk hn
  · obtain ⟨hv, hd⟩ := not_or.mp hn
    rw [Bool.not_eq_false] at hv
    rw [Bool.not_eq_true] at hd
    rw [expandIfNeeded_of_clean hv hd]
    exact h.fresh hv hd

/-- Some key's expansion stays while the schedule elements do. -/
theorem State.Inv.schedule_congr (h : s.Inv) (hv : s.ksValid = true) (hks : t.ks = s.ks) (hiks : t.iks = s.iks)
    (hnr : t.nr = s.nr) : ∃ key nk, IsExpansion t key nk := by
  obtain ⟨key, nk, he⟩ := h.schedule hv
  exact ⟨key, nk, he.congr hks hiks hnr⟩

/-! ### Reset, results and effects -/

/-- Settles O35: at reset there is no stream, no schedule, no key and no error. -/
theorem invariantHoldsAtReset : Obligations.InvariantHoldsAtReset where
  data_bound := Nat.zero_le _
  data_empty := fun _ => rfl
  off_iff := iff_of_true rfl rfl
  before_init := fun _ => ⟨rfl, rfl, rfl, rfl, rfl⟩
  schedule := nofun
  fresh := nofun
  dirty_iff := fun _ => iff_of_false Bool.false_ne_true (not_not.mpr rfl)
  loaded := nofun
  key_fill := fun _ _ => Vector.getElem_replicate _
  error_sticky := fun h => absurd rfl h

/-- `IV` and the two streams are free of the invariant, and `ERR`, `STICKY` and `UFL` are tied to each other
alone (R211). -/
theorem State.Inv.with_result (h : s.Inv) (iv : Block) {err : ErrCode} {sticky ufl : Bool}
    (he : err ≠ .ok → sticky = true ∧ ufl = false) (inputs : List HostInput) (responses : List Response) :
    ({ s with iv := iv, err := err, sticky := sticky, ufl := ufl, inputs := inputs,
              responses := responses } : State).Inv where
  data_bound := h.data_bound
  data_empty := h.data_empty
  off_iff := h.off_iff
  before_init := h.before_init
  schedule := fun hv => h.schedule_congr hv rfl rfl rfl
  fresh := fun hv hd => (h.fresh hv hd).congr rfl rfl rfl
  dirty_iff := h.dirty_iff
  loaded := h.loaded
  key_fill := h.key_fill
  error_sticky := he

theorem State.Inv.raiseError (h : s.Inv) (code : ErrCode) : (raiseError code s).Inv :=
  h.with_result s.iv (fun _ => ⟨rfl, rfl⟩) _ _

theorem State.Inv.respond (h : s.Inv) (out : Bytes) : (respond out s).Inv :=
  h.with_result s.iv h.error_sticky _ _

theorem State.Inv.complete (h : s.Inv) (out : Bytes) (u : Bool) : (complete out u s).Inv :=
  h.with_result s.iv (fun hne => absurd rfl hne) _ _

theorem State.Inv.takeInput (h : s.Inv) (rest : List HostInput) : ({ s with inputs := rest } : State).Inv :=
  h.with_result s.iv h.error_sticky _ _

theorem hardReset_inv (s : State) : (hardReset s).Inv :=
  State.Inv.with_result invariantHoldsAtReset Block.zero (fun h => absurd rfl h) _ _

/-- R129: a new key leaves the schedule, which from then on is that of an older key (R243). -/
theorem State.Inv.loadKey (h : s.Inv) {nk : KeyLength} (hnk : nk ≠ .none) (operand : Bytes) :
    ({ s with key := keyRegister nk.words operand, keyNk := nk, keyDirty := true } : State).Inv where
  data_bound := h.data_bound
  data_empty := h.data_empty
  off_iff := h.off_iff
  before_init := h.before_init
  schedule := fun hv => h.schedule_congr hv rfl rfl rfl
  fresh := fun _ hd => absurd hd (by simp)
  dirty_iff := fun _ => iff_of_true rfl hnk
  loaded := fun _ => hnk
  key_fill := keyRegister_fill nk.words operand
  error_sticky := h.error_sticky

/-- R152: `INIT` leaves the schedule of `KEY`, and `DATA` empty. -/
theorem State.Inv.init (h : s.Inv) (hk : s.keyNk ≠ .none) (dir : Direction) (chain : Block) :
    ({ expandIfNeeded s with dir := dir, chain := chain, data := [], state := .idle } : State).Inv where
  data_bound := Nat.zero_le _
  data_empty := fun _ => rfl
  off_iff := by simp
  before_init := nofun
  schedule := fun _ => ⟨_, _, (h.expandIfNeeded_isExpansion hk).congr rfl rfl rfl⟩
  fresh := fun _ _ => by
    simp only [expandIfNeeded_key, expandIfNeeded_keyNk]
    exact (h.expandIfNeeded_isExpansion hk).congr rfl rfl rfl
  dirty_iff := by simp
  loaded := by simpa using hk
  key_fill := by simpa using h.key_fill
  error_sticky := by simpa using h.error_sticky

/-- R153, R154: a stream leaves the key and its schedule, and its new `DATA` has to meet the bounds of the
state it leads to. -/
theorem State.Inv.afterBlocks (h : s.Inv) (hs : streaming s) {d : Bytes} {n : Nat} {state : CipherState}
    (hoff : state ≠ .off) (hbound : (d.drop (16 * n)).length ≤ if s.dir = .enc then 15 else 31)
    (hempty : state = .final → d.drop (16 * n) = []) :
    ({ afterBlocks s d n with state := state } : State).Inv where
  data_bound := hbound
  data_empty := fun he => hempty (he.resolve_right hoff)
  off_iff := iff_of_false hoff (by simpa using h.ksValid_of_streaming hs)
  before_init := fun he => absurd he hoff
  schedule := fun hv => h.schedule_congr hv rfl rfl rfl
  fresh := fun hv hd => (h.fresh hv hd).congr rfl rfl rfl
  dirty_iff := h.dirty_iff
  loaded := h.loaded
  key_fill := h.key_fill
  error_sticky := h.error_sticky

/-- A `FINAL` of whole blocks. -/
theorem State.Inv.afterAllBlocks (h : s.Inv) (hs : streaming s) {d : Bytes} (hd : d.length % 16 = 0) :
    ({ Machine.afterBlocks s d (d.length / 16) with state := .final } : State).Inv :=
  h.afterBlocks hs (by decide) (by simp [drop_all_blocks hd]) (fun _ => drop_all_blocks hd)

theorem Effect.inv (he : Effect s i out u s') (h : s.Inv) : s'.Inv := by
  cases he with
  | loadKey kl nk operand hk _ => exact h.loadKey (keyLengthOf_ne_none hk) operand
  | loadIv operand _ => exact h.with_result _ h.error_sticky _ _
  | init dir ivp hk => exact h.init hk dir _
  | update operand hs => exact h.afterBlocks hs (by decide) (length_drop_blocksToProcess_le _ _) nofun
  | finalEnc operand hs _ => exact h.afterAllBlocks hs (pad_length_mod _)
  | finalDec operand hs _ hl => exact h.afterAllBlocks hs (by rwa [List.length_append])
  | encBlock operand _ _ => exact h
  | decBlock operand _ _ => exact h
  | pad operand => exact h
  | unpad operand => exact h

theorem exec_inv (h : s.Inv) (ht : exec i s = .next t) : t.Inv := by
  obtain ⟨code, -, rfl⟩ | ⟨-, rfl⟩ | ⟨out, u, s', he, rfl⟩ := exec_next_cases ht
  · exact h.raiseError code
  · exact h.respond []
  · exact (he.inv h).complete out u

/-- Settles O36: of the things a step can do, each keeps the invariant. -/
theorem everyStepKeepsTheInvariant : Obligations.EveryStepKeepsTheInvariant := by
  intro s t h ht
  obtain ⟨-, rfl⟩ | ⟨rest, -, rfl⟩ | ⟨_, _, rest, i, -, -, hi⟩ | ⟨_, _, rest, code, -, -, rfl⟩ :=
    step_next_cases ht
  · exact h
  · exact hardReset_inv _
  · exact exec_inv (h.takeInput rest) hi
  · exact (h.takeInput rest).raiseError code

end Sys2Proof.Machine
end

section
/-! The status word (spec/10_state.md R38): it is the disjunction of fields that do not overlap, so each field
reads back its element. -/

namespace Sys2Proof.Machine

/-- A field of the status word: the bits `x` from bit `n` up, 0 elsewhere. -/
def fieldAt {w : Nat} (x : BitVec w) (n : Nat) : Word := x.setWidth 32 <<< n

/-- A field reads back at its own place. -/
theorem extractLsb'_fieldAt_same {w n : Nat} (x : BitVec w) (h : n + w ≤ 32) :
    (fieldAt x n).extractLsb' n w = x := by
  apply BitVec.eq_of_getLsbD_eq
  intro i hi
  simp [fieldAt, hi, show n + i < 32 by omega]

/-- A field reads 0 where it is not. -/
theorem extractLsb'_fieldAt_disjoint {w n a l : Nat} (x : BitVec w) (h : a + l ≤ n ∨ n + w ≤ a) :
    (fieldAt x n).extractLsb' a l = 0 := by
  apply BitVec.eq_of_getLsbD_eq
  intro i hi
  rcases h with h | h
  · simp [fieldAt, show a + i < n by omega]
  · simp [fieldAt, BitVec.getLsbD_of_ge x (a + i - n) (by omega)]

/-- A one-bit field as a bit. -/
theorem getLsbD_of_extractLsb'_one {v : Word} {n : Nat} {b : Bool}
    (h : v.extractLsb' n 1 = BitVec.ofBool b) : v.getLsbD n = b := by
  simpa using congrArg (·.getLsbD 0) h

/-- The status word field by field; with `|DATA| < 64` (R33) its length fills a field of six bits. -/
theorem statusWord_eq_fields {s : State} (h : s.data.length < 64) : statusWord s =
    fieldAt (stateCode s.state) 0 ||| fieldAt (dirCode s.dir) 2 ||| fieldAt (BitVec.ofBool s.ksValid) 3 |||
      fieldAt (BitVec.ofBool s.keyDirty) 4 ||| fieldAt (nkCode s.keyNk) 5 ||| fieldAt (BitVec.ofBool s.ufl) 7 |||
      fieldAt s.err.code 8 ||| fieldAt (BitVec.ofBool s.sticky) 12 |||
      fieldAt (BitVec.ofNat 6 s.data.length) 16 := by
  have hdata : BitVec.ofNat 32 s.data.length = (BitVec.ofNat 6 s.data.length).setWidth 32 := by
    apply BitVec.eq_of_toNat_eq
    simp only [BitVec.toNat_ofNat, BitVec.toNat_setWidth]
    omega
  simp only [statusWord, fieldAt, bitAt, hdata, BitVec.shiftLeft_zero]

/-- R33: at most `DATA_CAP` bytes are held between commands. -/
theorem State.Inv.data_length_le {s : State} (h : s.Inv) : s.data.length ≤ Config.dataCap := by
  have hb := h.data_bound
  unfold Config.dataCap
  split at hb <;> omega

/-- Settles O37: every bit range R38 names lies in one field of the status word or in none. -/
theorem statusWordHasItsLayout : Obligations.StatusWordHasItsLayout := by
  refine ⟨rfl, rfl, rfl, fun s h => ?_⟩
  have hlen : s.data.length < 64 := Nat.lt_of_le_of_lt h.data_length_le (by decide)
  rw [statusWord_eq_fields hlen]
  refine ⟨?_, ?_, getLsbD_of_extractLsb'_one ?_, getLsbD_of_extractLsb'_one ?_, ?_,
    getLsbD_of_extractLsb'_one ?_, ?_, getLsbD_of_extractLsb'_one ?_, ?_, ?_, ?_, h.data_length_le⟩
  all_goals simp (disch := omega) only [BitVec.extractLsb'_or, extractLsb'_fieldAt_same,
    extractLsb'_fieldAt_disjoint, BitVec.ofNat_eq_ofNat, BitVec.or_zero, BitVec.zero_or]
  -- What is left is the one field read as a number, `DATA_LEN`.
  exact (BitVec.toNat_ofNat _ _).trans (Nat.mod_eq_of_lt hlen)

end Sys2Proof.Machine
end

section
/-! Packing and unpacking (spec/20_memory.md R51, R52): each one byte by byte, and that they undo each other. -/

namespace Sys2Proof.Machine

/-- R52 the other way: the four bytes of a word make the word again. -/
@[simp] theorem wordOf_byteOf (v : Word) : wordOf (byteOf v 0) (byteOf v 1) (byteOf v 2) (byteOf v 3) = v := by
  rw [← BitVec.toNat_inj, toNat_wordOf]
  simp only [toNat_byteOf]
  have := v.isLt
  omega

theorem getD_wordBytes (v : Word) {k : Nat} (h : k < 4) : (wordBytes v).getD k 0 = byteOf v k := by
  match k, h with
  | 0, _ | 1, _ | 2, _ | 3, _ => rfl

/-- What `pack` leaves out is less than a word. -/
theorem length_lt_four {x : Bytes} (hx : ∀ b0 b1 b2 b3 rest, x = b0 :: b1 :: b2 :: b3 :: rest → False) :
    x.length < 4 := by
  match x with
  | [] | [_] | [_, _] | [_, _, _] => simp
  | b0 :: b1 :: b2 :: b3 :: rest => exact absurd rfl (hx b0 b1 b2 b3 rest)

/-- R51 word by word. -/
theorem getD_pack (x : Bytes) (j : Nat) (h : 4 * j + 3 < x.length) : (pack x).getD j 0 =
    wordOf (x.getD (4 * j) 0) (x.getD (4 * j + 1) 0) (x.getD (4 * j + 2) 0) (x.getD (4 * j + 3) 0) := by
  induction x using pack.induct generalizing j with
  | case1 b0 b1 b2 b3 rest ih =>
    cases j with
    | zero => rfl
    | succ j => exact ih j (by simp only [List.length_cons] at h; omega)
  | case2 x hx => have := length_lt_four hx; omega

@[simp] theorem pack_length (x : Bytes) : (pack x).length = x.length / 4 := by
  induction x using pack.induct with
  | case1 b0 b1 b2 b3 rest ih => simp only [pack, List.length_cons, ih]; omega
  | case2 x hx => rw [pack.eq_2 x hx, List.length_nil, Nat.div_eq_of_lt (length_lt_four hx)]

theorem unpack_pack {x : Bytes} (h : x.length % 4 = 0) : unpack (pack x) = x := by
  induction x using pack.induct with
  | case1 b0 b1 b2 b3 rest ih =>
    have hrest : unpack (pack rest) = rest := ih (by simp only [List.length_cons] at h; omega)
    simp [pack, unpack, hrest]
  | case2 x hx =>
    obtain rfl : x = [] := List.length_eq_zero_iff.mp (by have := length_lt_four hx; omega)
    rfl

@[simp] theorem unpack_length (ws : List Word) : (unpack ws).length = 4 * ws.length := by
  induction ws with
  | nil => rfl
  | cons w ws ih => simp [unpack, wordBytes, ih]; omega

@[simp] theorem pack_unpack (ws : List Word) : pack (unpack ws) = ws := by
  induction ws with
  | nil => rfl
  | cons w ws ih => simp [unpack, wordBytes, pack, ih]

/-- R52 byte by byte. -/
theorem getD_unpack (ws : List Word) {j k : Nat} (hj : j < ws.length) (hk : k < 4) :
    (unpack ws).getD (4 * j + k) 0 = byteOf (ws.getD j 0) k := by
  induction ws generalizing j with
  | nil => exact absurd hj (Nat.not_lt_zero j)
  | cons w ws ih =>
    cases j with
    | zero =>
      rw [Nat.mul_zero, Nat.zero_add, unpack, List.getD_append _ _ _ _ hk]
      exact getD_wordBytes w hk
    | succ j =>
      rw [Nat.mul_succ, Nat.add_right_comm]
      exact ih (Nat.lt_of_succ_lt_succ hj)

/-- Settles O15 from the laws of `pack` and `unpack` above. -/
theorem packAndUnpackAreInverse : Obligations.PackAndUnpackAreInverse :=
  ⟨getD_pack, fun x h => ⟨pack_length x, unpack_pack h⟩, fun ws => ⟨unpack_length ws, pack_unpack ws⟩,
    fun ws _ _ => getD_unpack ws⟩

end Sys2Proof.Machine
end

section
/-! The command channel (spec/20_memory.md R55, R57, R63): what the decoder answers for a transfer with the right
operand length, the one response of a command, and a command executed twice. -/

namespace Sys2Proof.Machine

/-- Settles O3: a step on each kind of input, and an error as the record of its effects. -/
theorem stepRunsTheDecodedCommand : Obligations.StepRunsTheDecodedCommand :=
  ⟨fun _ _ _ _ _ hd => step_of_command rfl hd,
    fun _ _ _ _ _ hd => ⟨_, step_of_raises rfl hd, raiseError_errored _ _⟩,
    fun _ h => step_of_no_input h⟩

theorem decode_eq_notACommand {cmd : Word} {operand : Bytes} (h : operand.length ≠ lenField cmd) :
    decode cmd operand = .notACommand := by
  rw [decode, if_neg h]

theorem ifUnusedZero_ne_notACommand (fieldsOk : Bool) (i : Instr) : ifUnusedZero fieldsOk i ≠ .notACommand := by
  cases fieldsOk <;> exact Decoded.noConfusion

/-- The word alone always selects a command or an error: only the operand length makes a transfer no command. -/
theorem decodeWord_ne_notACommand (cmd : Word) (operand : Bytes) : decodeWord cmd operand ≠ .notACommand := by
  unfold decodeWord
  split
  iterate 10 exact ifUnusedZero_ne_notACommand _ _
  exact Decoded.noConfusion

/-- Every command is answered by one response (R79). -/
theorem exec_answers (i : Instr) (s : State) : ∃ t out, exec i s = .next t ∧ Answers out s t := by
  obtain ⟨code, -, he⟩ | ⟨-, he⟩ | ⟨out, u, s', hf, he⟩ := exec_cases i s
  · exact ⟨_, [], he, rfl⟩
  · exact ⟨_, [], he, rfl⟩
  · obtain ⟨-, hresp, -⟩ := hf.frame
    exact ⟨_, out, he, congrArg (· ++ [_]) hresp⟩

/-- Settles O4: the length decides between a refusal and an answer, which is the response of the decoded command or
of the error its word raises. -/
theorem everyReceivedCommandGetsOneResponse : Obligations.EveryReceivedCommandGetsOneResponse := by
  intro s rest cmd operand
  refine ⟨fun hl => step_of_notACommand rfl (decode_eq_notACommand hl), fun hl => ?_⟩
  have hdec : decode cmd operand = decodeWord cmd operand := if_pos hl
  cases hw : decodeWord cmd operand with
  | command i =>
    obtain ⟨t, out, ht, hans⟩ := exec_answers i { s with inputs := rest }
    exact ⟨t, out, (step_of_command rfl (hdec.trans hw)).trans ht, exec_inputs ht, hans⟩
  | raises code => exact ⟨_, [], step_of_raises rfl (hdec.trans hw), rfl, rfl⟩
  | notACommand => exact absurd hw (decodeWord_ne_notACommand cmd operand)

/-- A second `INIT` finds the schedule clean, and sets from `IV` the chaining value it has already set. -/
theorem exec_init_again {s t : State} {dir : Direction} {ivp : Bool} {operand : Bytes} (h : operand.length = 0)
    (hk : s.keyNk ≠ .none) (ht : exec (.init dir ivp operand) s = .next t) :
    exec (.init dir ivp operand) t = .next (complete [] false t) := by
  have hst := Host.Outcome.next.inj ((exec_init h hk).symm.trans ht)
  have hclean : expandIfNeeded t = t := expandIfNeeded_of_clean (by simp [← hst]) (by simp [← hst])
  have hchain : initialChain ivp t = initialChain ivp s := by simp [← hst, initialChain]
  rw [exec_init h (by simpa [← hst] using hk), hclean, hchain, ← hst]
  rfl

/-- R55 for one command: each branch of the first execution is the branch of the second, since raising an error
leaves the elements that the check has read, and the effect of a completed command is already in place. -/
theorem exec_twice (i : Instr) (s : State) (hu : i.mnemonic ≠ "UPDATE") (hf : i.mnemonic ≠ "FINAL") :
    ∃ t u r, exec i s = .next t ∧ exec i t = .next u ∧
      u = { t with responses := t.responses ++ [r] } ∧ t.responses = s.responses ++ [r] := by
  cases i with
  | status operand =>
    by_cases h : operand.length = 0
    · exact ⟨_, _, _, exec_status h, exec_status h, rfl, rfl⟩
    · exact ⟨_, _, _, exec_status_length h, exec_status_length h, rfl, rfl⟩
  | loadKey kl operand =>
    cases hk : keyLengthOf kl with
    | none => exact ⟨_, _, _, exec_loadKey_keylen hk, exec_loadKey_keylen hk, rfl, rfl⟩
    | some nk =>
      by_cases h : operand.length = 16 + 8 * kl.toNat
      · exact ⟨_, _, _, exec_loadKey hk h, exec_loadKey hk h, rfl, rfl⟩
      · exact ⟨_, _, _, exec_loadKey_length hk h, exec_loadKey_length hk h, rfl, rfl⟩
  | loadIv operand =>
    by_cases h : operand.length = 16
    · exact ⟨_, _, _, exec_loadIv h, exec_loadIv h, rfl, rfl⟩
    · exact ⟨_, _, _, exec_loadIv_length h, exec_loadIv_length h, rfl, rfl⟩
  | init dir ivp operand =>
    by_cases h : operand.length = 0
    · by_cases hk : s.keyNk = .none
      · exact ⟨_, _, _, exec_init_nokey h hk, exec_init_nokey h hk, rfl, rfl⟩
      · exact ⟨_, _, _, exec_init h hk, exec_init_again h hk (exec_init h hk), rfl,
          congrArg (· ++ [_]) (expandIfNeeded_responses s)⟩
    · exact ⟨_, _, _, exec_init_length h, exec_init_length h, rfl, rfl⟩
  | update operand => exact absurd rfl hu
  | final operand => exact absurd rfl hf
  | encBlock operand =>
    by_cases h : operand.length = 16
    · cases hv : s.ksValid with
      | true => exact ⟨_, _, _, exec_encBlock h hv, exec_encBlock h hv, rfl, rfl⟩
      | false => exact ⟨_, _, _, exec_encBlock_nokey h hv, exec_encBlock_nokey h hv, rfl, rfl⟩
    · exact ⟨_, _, _, exec_encBlock_length h, exec_encBlock_length h, rfl, rfl⟩
  | decBlock operand =>
    by_cases h : operand.length = 16
    · cases hv : s.ksValid with
      | true => exact ⟨_, _, _, exec_decBlock h hv, exec_decBlock h hv, rfl, rfl⟩
      | false => exact ⟨_, _, _, exec_decBlock_nokey h hv, exec_decBlock_nokey h hv, rfl, rfl⟩
    · exact ⟨_, _, _, exec_decBlock_length h, exec_decBlock_length h, rfl, rfl⟩
  | pad operand => exact ⟨_, _, _, exec_pad, exec_pad, rfl, rfl⟩
  | unpad operand => exact ⟨_, _, _, exec_unpad, exec_unpad, rfl, rfl⟩

/-- Settles O46: `exec` is a function, so the two next states are those of `exec_twice`. -/
theorem repeatedCommandsAreIdempotent : Obligations.RepeatedCommandsAreIdempotent := by
  intro i s t u hu hf ht hu'
  obtain ⟨t', u', r, hst, htu, hr⟩ := exec_twice i s hu hf
  cases ht.symm.trans hst
  cases hu'.symm.trans htu
  exact ⟨r, hr⟩

end Sys2Proof.Machine
end

section
/-! The command word and its decoder (spec/30_encoding.md R70 to R76): the fields of a word as digits of its number,
which determine the word, and the words that decode to a given command. -/

namespace Sys2Proof.Machine

open Laws (EncodedFields.fields EncodedFields.Statement)

/-- Settles O59: a field of `n` bits from bit `k` up is the number divided by `2 ^ k`, modulo `2 ^ n`; above `LEN`
there is nothing to cut off. -/
theorem commandWordHasItsFields : Obligations.CommandWordHasItsFields := by
  intro cmd
  have hlt : cmd.toNat < 2 ^ 32 := cmd.isLt
  simp only [opcField, dirField, ivpField, klField, rsvField, lenField, BitVec.extractLsb'_toNat, BitVec.getLsbD,
    Nat.testBit_eq_decide_div_mod_eq, Nat.shiftRight_eq_div_pow]
  refine ⟨by omega, trivial, trivial, trivial, trivial, by omega⟩

theorem getLsbD_eq_of_extractLsb'_eq {v w : Word} {k n i : Nat} (h : v.extractLsb' k n = w.extractLsb' k n)
    (hk : k ≤ i) (hi : i < k + n) : v.getLsbD i = w.getLsbD i := by
  have hbit := congrArg (·.getLsbD (i - k)) h
  simpa [BitVec.getLsbD_extractLsb', Nat.sub_lt_left_of_lt_add hk hi, Nat.add_sub_cancel' hk] using hbit

/-- The six fields of R71 cover the word: two words with the same fields are the same, bit by bit. -/
theorem word_eq_of_fields {v w : Word} (hlen : lenField v = lenField w) (hrsv : rsvField v = rsvField w)
    (hrest : (opcField v, klField v, ivpField v, dirField v) = (opcField w, klField w, ivpField w, dirField w)) :
    v = w := by
  simp only [Prod.mk.injEq] at hrest
  obtain ⟨hopc, hkl, hivp, hdir⟩ := hrest
  refine BitVec.eq_of_getLsbD_eq fun i hi => ?_
  obtain h | rfl | rfl | ⟨hge, hlt⟩ | ⟨hge, hlt⟩ | h :
      i < 8 ∨ i = 8 ∨ i = 9 ∨ (10 ≤ i ∧ i < 12) ∨ (12 ≤ i ∧ i < 16) ∨ 16 ≤ i := by omega
  · exact getLsbD_eq_of_extractLsb'_eq (BitVec.eq_of_toNat_eq hopc) (Nat.zero_le i) (by omega)
  · exact hdir
  · exact hivp
  · exact getLsbD_eq_of_extractLsb'_eq hkl hge hlt
  · exact getLsbD_eq_of_extractLsb'_eq hrsv hge hlt
  · exact getLsbD_eq_of_extractLsb'_eq (BitVec.eq_of_toNat_eq hlen) h hi

theorem noFields_iff {cmd : Word} : noFields cmd = true ↔
    rsvField cmd = 0 ∧ klField cmd = 0 ∧ ivpField cmd = false ∧ dirField cmd = false := by
  simp [noFields, and_assoc]

theorem onlyKl_iff {cmd : Word} : onlyKl cmd = true ↔
    rsvField cmd = 0 ∧ ivpField cmd = false ∧ dirField cmd = false := by
  simp [onlyKl, and_assoc]

theorem onlyDirIvp_iff {cmd : Word} : onlyDirIvp cmd = true ↔ rsvField cmd = 0 ∧ klField cmd = 0 := by
  simp [onlyDirIvp]

theorem ifUnusedZero_eq_command_iff {fieldsOk : Bool} {i j : Instr} :
    ifUnusedZero fieldsOk i = .command j ↔ fieldsOk = true ∧ i = j := by
  cases fieldsOk <;> simp [ifUnusedZero]

theorem decide_directionOf (b : Bool) : decide (directionOf b = .dec) = b := by
  cases b <;> rfl

theorem directionOf_decide (dir : Direction) : directionOf (decide (dir = .dec)) = dir := by
  cases dir <;> rfl

/-- R72, R73, R76: the decoder selects the command whose opcode the word has and whose fields the word has, all
others being 0. -/
theorem decodeWord_eq_command_iff {cmd : Word} {operand : Bytes} {i : Instr} :
    decodeWord cmd operand = .command i ↔ rsvField cmd = 0 ∧
      (opcField cmd, klField cmd, ivpField cmd, dirField cmd) = EncodedFields.fields i ∧ i.operand = operand := by
  constructor
  · intro h
    unfold decodeWord at h
    split at h
    case h_11 => cases h
    all_goals
      obtain ⟨hfields, rfl⟩ := ifUnusedZero_eq_command_iff.mp h
      simp_all [noFields_iff, onlyKl_iff, onlyDirIvp_iff, EncodedFields.fields, Instr.operand, decide_directionOf]
  · rintro ⟨hrsv, hfields, rfl⟩
    cases i
    all_goals
      simp only [EncodedFields.fields, Prod.mk.injEq] at hfields
      obtain ⟨hopc, hkl, hivp, hdir⟩ := hfields
      simp only [decodeWord, hopc, ifUnusedZero_eq_command_iff, noFields_iff, onlyKl_iff, onlyDirIvp_iff]
      simp [hrsv, hkl, hivp, hdir, Instr.operand, directionOf_decide]

/-- The transfers that decode to a command: the operand is the command's, `LEN` its length (R63). -/
theorem decode_eq_command_iff {cmd : Word} {operand : Bytes} {i : Instr} :
    decode cmd operand = .command i ↔ lenField cmd = operand.length ∧ rsvField cmd = 0 ∧
      (opcField cmd, klField cmd, ivpField cmd, dirField cmd) = EncodedFields.fields i ∧ i.operand = operand := by
  unfold decode
  split
  next hlen => simp [decodeWord_eq_command_iff, hlen]
  next hlen => simp [Ne.symm hlen]

theorem opcField_of_command {cmd : Word} {operand : Bytes} {i : Instr} (h : decode cmd operand = .command i) :
    opcField cmd = (EncodedFields.fields i).1 := by
  obtain ⟨-, -, hfields, -⟩ := decode_eq_command_iff.mp h
  exact congrArg Prod.fst hfields

theorem klField_of_command {cmd : Word} {operand : Bytes} {i : Instr} (h : decode cmd operand = .command i) :
    klField cmd = (EncodedFields.fields i).2.1 := by
  obtain ⟨-, -, hfields, -⟩ := decode_eq_command_iff.mp h
  exact congrArg (·.2.1) hfields

/-- Every encoded word has its command's fields. -/
theorem encodeWord_fields (i : Instr) : EncodedFields.Statement i := by
  cases i with
  | status operand => exact Laws.EncodedFields.status operand
  | loadKey kl operand => exact Laws.EncodedFields.loadKey kl operand
  | loadIv operand => exact Laws.EncodedFields.loadIv operand
  | init dir ivp operand => exact Laws.EncodedFields.init dir ivp operand
  | update operand => exact Laws.EncodedFields.update operand
  | final operand => exact Laws.EncodedFields.final operand
  | encBlock operand => exact Laws.EncodedFields.encBlock operand
  | decBlock operand => exact Laws.EncodedFields.decBlock operand
  | pad operand => exact Laws.EncodedFields.pad operand
  | unpad operand => exact Laws.EncodedFields.unpad operand

theorem sendable_iff {i : Instr} : i.sendable = true ↔ i.operand.length ≤ 65535 := decide_eq_true_iff

/-- R74: the length rules allow no operand longer than `LEN` can say. -/
theorem sendable_of_wf {i : Instr} (h : i.wf = true) : i.sendable = true := by
  cases i with
  | update operand | final operand | pad operand | unpad operand => exact h
  | loadKey kl operand =>
    obtain ⟨-, hlen⟩ := (Bool.and_eq_true _ _).mp h
    have hkl : kl.toNat < 4 := kl.isLt
    exact sendable_iff.mpr ((beq_iff_eq.mp hlen).le.trans (by omega))
  | status operand | loadIv operand | init dir ivp operand | encBlock operand | decBlock operand =>
    exact sendable_iff.mpr (by simp_all [Instr.wf, Instr.operand])

/-- Settles O7: the encoded word has the fields that make the decoder select the command. -/
theorem decodeOfEncodeIsTheCommand : Obligations.DecodeOfEncodeIsTheCommand := by
  refine ⟨fun i => sendable_of_wf, fun i hs => decode_eq_command_iff.mpr ?_⟩
  obtain ⟨hlen, hrsv, hfields⟩ := encodeWord_fields i hs
  exact ⟨hlen, hrsv, hfields, rfl⟩

/-- `LEN` is a 16-bit field. -/
theorem lenField_le (cmd : Word) : lenField cmd ≤ Config.lenMax := Nat.le_of_lt_succ (BitVec.isLt _)

theorem sendable_of_decode {cmd : Word} {operand : Bytes} {i : Instr} (h : decode cmd operand = .command i) :
    i.sendable = true := by
  obtain ⟨hlen, -, -, rfl⟩ := decode_eq_command_iff.mp h
  exact decide_eq_true (hlen ▸ lenField_le cmd)

/-- Settles O8: the word and the encoded word have the same fields. -/
theorem encodeOfDecodeIsTheTransfer : Obligations.EncodeOfDecodeIsTheTransfer := by
  intro cmd operand i h
  obtain ⟨hlen, hrsv, hfields⟩ := encodeWord_fields i (sendable_of_decode h)
  obtain ⟨hlen', hrsv', hfields', rfl⟩ := decode_eq_command_iff.mp h
  have hword : encodeWord i = cmd :=
    word_eq_of_fields (hlen.trans hlen'.symm) (hrsv.trans hrsv'.symm) (hfields.trans hfields'.symm)
  rw [encode, hword]

/-- Settles O11: the decoder evaluated on each word. -/
theorem commandWordsDecode : Obligations.CommandWordsDecode := by
  unfold Obligations.CommandWordsDecode
  decide

end Sys2Proof.Machine
end

section
/-! The errors of a command word (spec/30_encoding.md R73 to R78; spec/60_exceptions.md R210 to R212): what the
decoder makes of a word by steps 1 and 2 of R212, the error of a command that breaks a rule of steps 3 and 4, and the
rows of the opcode table. -/

namespace Sys2Proof.Machine

open Laws (EncodedFields.fields)

theorem noFields_eq {cmd : Word} (h1 : opcField cmd ≠ 1) (h3 : opcField cmd ≠ 3) :
    noFields cmd = !unusedNonzero cmd := by
  rw [← beq_eq_false_iff_ne] at h1 h3
  simp [noFields, unusedNonzero, bne, h1, h3]
  ac_rfl

theorem onlyKl_eq {cmd : Word} (h : opcField cmd = 1) : onlyKl cmd = !unusedNonzero cmd := by
  simp [onlyKl, unusedNonzero, bne, h]
  ac_rfl

theorem onlyDirIvp_eq {cmd : Word} (h : opcField cmd = 3) : onlyDirIvp cmd = !unusedNonzero cmd := by
  simp [onlyDirIvp, unusedNonzero, bne, h]

/-- R77: step 1 of R212. -/
theorem decodeWord_of_illegal {cmd : Word} (operand : Bytes) (h : 9 < opcField cmd) :
    decodeWord cmd operand = .raises .illegal := by
  unfold decodeWord
  split
  case h_11 => rfl
  all_goals omega

/-- R73: step 2 of R212, the same test for every opcode of the table. -/
theorem decodeWord_of_opcode {cmd : Word} (operand : Bytes) (h : opcField cmd ≤ 9) :
    ∃ i, decodeWord cmd operand = ifUnusedZero (!unusedNonzero cmd) i := by
  unfold decodeWord
  split
  case h_2 h1 => exact ⟨_, congrArg (ifUnusedZero · _) (onlyKl_eq h1)⟩
  case h_4 h3 => exact ⟨_, congrArg (ifUnusedZero · _) (onlyDirIvp_eq h3)⟩
  case h_11 =>
    simp only [imp_false] at *
    omega
  all_goals exact ⟨_, congrArg (ifUnusedZero · _) (noFields_eq (by omega) (by omega))⟩

theorem decode_of_length {cmd : Word} {operand : Bytes} (h : operand.length = lenField cmd) :
    decode cmd operand = decodeWord cmd operand := if_pos h

/-- Steps 1 and 2 of R212 are the decoder's: a transfer of the right length raises the error of its word, or is a
command and its word passes both steps. -/
theorem decode_cases {cmd : Word} {operand : Bytes} (h : operand.length = lenField cmd) :
    (∃ code, decode cmd operand = .raises code ∧ wordError cmd = some code) ∨
    (∃ i, decode cmd operand = .command i ∧ opcField cmd ≤ 9 ∧ unusedNonzero cmd = false) := by
  rw [decode_of_length h]
  by_cases hopc : opcField cmd ≤ 9
  · obtain ⟨i, hi⟩ := decodeWord_of_opcode operand hopc
    cases hu : unusedNonzero cmd with
    | true =>
      rw [hu] at hi
      exact .inl ⟨.rsvd, hi, by rw [wordError, if_neg (Nat.not_lt.mpr hopc), if_pos hu]⟩
    | false =>
      rw [hu] at hi
      exact .inr ⟨i, hi, hopc, rfl⟩
  · have hill : 9 < opcField cmd := Nat.lt_of_not_le hopc
    exact .inl ⟨.illegal, decodeWord_of_illegal operand hill, if_pos hill⟩

/-- The error of a command that breaks its length rule or has `KL = 3` (R74, R75). -/
def illFormedError : Instr → ErrCode
  | .loadKey kl _ => if kl = 3 then .keylen else .length
  | _ => .length

/-- Steps 3 and 4 of R212 for a word that decodes to a command: the rules of the word are those of the command. -/
theorem wordError_of_command {cmd : Word} {operand : Bytes} {i : Instr} (h : decode cmd operand = .command i) :
    wordError cmd = if i.wf then none else some (illFormedError i) := by
  have hs := sendable_of_decode h
  obtain ⟨hlen, -, -, rfl⟩ := decode_eq_command_iff.mp h
  obtain ⟨code, hraises, -⟩ | ⟨-, -, hopc, hunused⟩ := decode_cases hlen.symm
  · cases hraises.symm.trans h
  rw [wordError, if_neg (Nat.not_lt.mpr hopc), hunused, if_neg Bool.false_ne_true, hlen,
    opcField_of_command h, klField_of_command h]
  cases i with
  | loadKey kl operand =>
    by_cases h3 : kl = 3#2 <;>
      simp [EncodedFields.fields, h3, lengthRule, Instr.wf, illFormedError, Instr.operand, ite_not]
  | update operand | final operand | pad operand | unpad operand => exact (if_pos hs).symm
  | status operand | loadIv operand | init dir ivp operand | encBlock operand | decBlock operand =>
    simp [EncodedFields.fields, lengthRule, Instr.wf, illFormedError, Instr.operand, ite_not]

theorem keyLengthOf_eq_none_iff {kl : BitVec 2} : keyLengthOf kl = none ↔ kl = 3 := by
  revert kl
  decide

/-- Steps 3 and 4 of R212 come before any check of the state. -/
theorem exec_of_not_wf {i : Instr} (hs : i.sendable = true) (hw : i.wf = false) (s : State) :
    exec i s = .next (raiseError (illFormedError i) s) := by
  cases i with
  | status operand => exact exec_status_length (beq_eq_false_iff_ne.mp hw)
  | loadKey kl operand =>
    by_cases hkl : kl = 3
    · rw [exec_loadKey_keylen (keyLengthOf_eq_none_iff.mpr hkl), illFormedError, if_pos hkl]
    · obtain ⟨nk, hnk⟩ := Option.ne_none_iff_exists'.mp (mt keyLengthOf_eq_none_iff.mp hkl)
      have hlen : operand.length ≠ 16 + 8 * kl.toNat := by simpa [Instr.wf, show kl ≠ 3#2 from hkl] using hw
      rw [exec_loadKey_length hnk hlen, illFormedError, if_neg hkl]
  | loadIv operand => exact exec_loadIv_length (beq_eq_false_iff_ne.mp hw)
  | init dir ivp operand => exact exec_init_length (beq_eq_false_iff_ne.mp hw)
  | encBlock operand => exact exec_encBlock_length (beq_eq_false_iff_ne.mp hw)
  | decBlock operand => exact exec_decBlock_length (beq_eq_false_iff_ne.mp hw)
  | update operand | final operand | pad operand | unpad operand =>
    exact absurd (hw.symm.trans hs) Bool.false_ne_true

/-- Settles O30: the error of each command, with the effects of an error. -/
theorem illFormedCommandsRaise : Obligations.IllFormedCommandsRaise := by
  intro s i hs hw
  refine ⟨_, exec_of_not_wf hs hw s, ?_⟩
  cases i <;> exact raiseError_errored _ s

/-- Settles O9: the decoder raises the error of its word, and a command that is not well-formed raises its own. -/
theorem everyWordIsACommandOrRaises : Obligations.EveryWordIsACommandOrRaises := by
  intro cmd operand hlen
  obtain ⟨code, hdec, herr⟩ | ⟨i, hdec, -, -⟩ := decode_cases hlen
  · exact .inr ⟨code, herr, fun s rest => ⟨_, step_of_raises rfl hdec, raiseError_errored _ _⟩⟩
  · have herr := wordError_of_command hdec
    cases hw : i.wf with
    | true => exact .inl ⟨by rw [herr, if_pos hw], i, hdec, hw⟩
    | false =>
      refine .inr ⟨illFormedError i, by rw [herr, hw, if_neg Bool.false_ne_true], fun s rest => ?_⟩
      have hexec := exec_of_not_wf (sendable_of_decode hdec) hw { s with inputs := rest }
      exact ⟨_, (step_of_command rfl hdec).trans hexec, raiseError_errored _ _⟩

/-- The mask of a row covers `OPC`, `RSV` and the fields its opcode does not use, and its pattern is 0 there (R72,
R73). -/
def fixesFields (r : TableRow) : Bool :=
  opcField r.mask == 255 && rsvField r.mask == 15 &&
    (opcField r.pattern == 3 || dirField r.mask && ivpField r.mask) &&
    (opcField r.pattern == 1 || klField r.mask == 3) && !unusedNonzero r.pattern

theorem matches_iff {r : TableRow} {cmd : Word} : r.matches cmd = true ↔ cmd &&& r.mask = r.pattern := beq_iff_eq

/-- A field that the mask covers is the pattern's. -/
theorem extractLsb'_of_matches {r : TableRow} {cmd : Word} {k n : Nat} (h : r.matches cmd = true)
    (hm : r.mask.extractLsb' k n = BitVec.allOnes n) : cmd.extractLsb' k n = r.pattern.extractLsb' k n := by
  rw [← matches_iff.mp h, BitVec.extractLsb'_and, hm, BitVec.and_allOnes]

theorem getLsbD_of_matches {r : TableRow} {cmd : Word} {k : Nat} (h : r.matches cmd = true)
    (hm : r.mask.getLsbD k = true) : cmd.getLsbD k = r.pattern.getLsbD k := by
  rw [← matches_iff.mp h, BitVec.getLsbD_and, hm, Bool.and_true]

/-- A word that matches a row has the row's opcode, and 0 in every field its opcode does not use. -/
theorem fields_of_matches {r : TableRow} {cmd : Word} (hr : fixesFields r = true) (h : r.matches cmd = true) :
    opcField cmd = opcField r.pattern ∧ unusedNonzero cmd = false := by
  simp only [fixesFields, Bool.and_eq_true, Bool.or_eq_true, beq_iff_eq, Bool.not_eq_true'] at hr
  obtain ⟨⟨⟨⟨hopc, hrsv⟩, hdirIvp⟩, hkl⟩, hu⟩ := hr
  have hopc' : opcField cmd = opcField r.pattern :=
    congrArg BitVec.toNat (extractLsb'_of_matches h (BitVec.eq_of_toNat_eq hopc))
  have hrsv' : rsvField cmd = rsvField r.pattern := extractLsb'_of_matches h hrsv
  have hdirIvp' : (opcField r.pattern != 3 && (dirField cmd || ivpField cmd)) =
      (opcField r.pattern != 3 && (dirField r.pattern || ivpField r.pattern)) := by
    obtain h3 | ⟨hd, hi⟩ := hdirIvp
    · simp [h3]
    · rw [dirField, ivpField, getLsbD_of_matches h hd, getLsbD_of_matches h hi]
      rfl
  have hkl' : (opcField r.pattern != 1 && klField cmd != 0) =
      (opcField r.pattern != 1 && klField r.pattern != 0) := by
    obtain h1 | hk := hkl
    · simp [h1]
    · rw [klField, extractLsb'_of_matches h hk]
      rfl
  refine ⟨hopc', ?_⟩
  rw [unusedNonzero, hopc', hrsv', hdirIvp', hkl']
  exact hu

/-- The rows stand in the order of the opcodes, and each fixes its fields. -/
theorem table_fixesFields :
    ∀ r ∈ opcodeTable, fixesFields r = true ∧ opcodeTable[opcField r.pattern]? = some r := by
  decide

theorem mnemonic_eq_row (i : Instr) :
    (opcodeTable[(EncodedFields.fields i).1]?).map TableRow.mnemonic = some i.mnemonic := by
  cases i <;> rfl

/-- Two rows that differ where both masks cover the word have no word in common. -/
theorem not_matches_both {r r' : TableRow} (h : r.pattern &&& r'.mask ≠ r'.pattern &&& r.mask) (cmd : Word) :
    ¬ (r.matches cmd = true ∧ r'.matches cmd = true) := by
  rintro ⟨hm, hm'⟩
  rw [matches_iff] at hm hm'
  apply h
  rw [← hm, ← hm', BitVec.and_assoc, BitVec.and_comm r.mask, BitVec.and_assoc]

theorem table_pairwise :
    opcodeTable.Pairwise fun r r' => r.pattern &&& r'.mask ≠ r'.pattern &&& r.mask := by
  decide

/-- Settles O10: any two rows differ where both masks cover the word, and each fixes the fields that select its
command. -/
theorem tableRowsSelectTheirCommand : Obligations.TableRowsSelectTheirCommand := by
  refine ⟨table_pairwise.imp not_matches_both, fun r hr cmd operand hm hlen => ?_⟩
  obtain ⟨hfix, hrow⟩ := table_fixesFields r hr
  obtain ⟨hopc, hunused⟩ := fields_of_matches hfix hm
  obtain ⟨hlt, -⟩ := List.getElem?_eq_some_iff.mp hrow
  obtain ⟨i, hi⟩ := decodeWord_of_opcode operand (Nat.le_of_lt_succ (hopc ▸ hlt))
  rw [hunused, ← decode_of_length hlen] at hi
  have hrow' := mnemonic_eq_row i
  rw [← opcField_of_command hi, hopc, hrow] at hrow'
  exact ⟨i, hi, (Option.some.inj hrow').symm⟩

end Sys2Proof.Machine
end

section
/-! The output of a received command (spec/30_encoding.md R79; spec/60_exceptions.md R210 to R212): the error a command
reports by its own checks of the state, and what it emits without one. -/

namespace Sys2Proof.Machine

open Laws (EncodedFields.fields)

/-- Step 5 of R212: the error of a well-formed command in a state (R210). -/
def stateError (s : State) : Instr → Option ErrCode
  | .init _ _ _ => if s.keyNk = .none then some .nokey else none
  | .encBlock _ | .decBlock _ => if s.ksValid = false then some .nokey else none
  | .update _ => if s.state = .off ∨ s.state = .final then some .state else none
  | .final operand =>
    if s.state = .off ∨ s.state = .final then some .state
    else if s.dir = .dec ∧ (s.data.length + operand.length) % 16 ≠ 0 then some .partialBlock
    else none
  | _ => none

theorem not_streaming_iff {s : State} : ¬ streaming s ↔ s.state = .off ∨ s.state = .final := by
  cases h : s.state <;> simp [streaming, h]

/-- The checks of a word that decodes to a command are those of the command. -/
theorem commandError_of_command {cmd : Word} {operand : Bytes} {i : Instr} (h : decode cmd operand = .command i)
    (s : State) : commandError s cmd = stateError s i := by
  obtain ⟨hlen, -, -, rfl⟩ := decode_eq_command_iff.mp h
  rw [commandError, hlen, opcField_of_command h]
  cases i <;> simp [EncodedFields.fields, stateError, Instr.operand]

/-- A received command reports the error of its rules, or else the error of its checks. -/
theorem reportedError_of_command {cmd : Word} {operand : Bytes} {i : Instr} (h : decode cmd operand = .command i)
    (s : State) : reportedError s cmd = if i.wf then stateError s i else some (illFormedError i) := by
  rw [reportedError, wordError_of_command h, ← commandError_of_command h]
  cases i.wf <;> rfl

/-- A well-formed command raises the error of its checks or, without one, answers a `STATUS` or completes with its
effect. -/
theorem exec_of_wf {i : Instr} (hw : i.wf = true) (s : State) :
    (∃ code, stateError s i = some code ∧ exec i s = .next (raiseError code s)) ∨
    (stateError s i = none ∧ ((i = .status [] ∧ exec i s = .next (respond [] s)) ∨
      ∃ out u s', Effect s i out u s' ∧ exec i s = .next (complete out u s'))) := by
  cases i with
  | status operand =>
    obtain rfl := List.eq_nil_of_length_eq_zero (beq_iff_eq.mp hw)
    exact .inr ⟨rfl, .inl ⟨rfl, exec_status rfl⟩⟩
  | loadKey kl operand =>
    obtain ⟨hkl, hlen⟩ := (Bool.and_eq_true _ _).mp hw
    obtain ⟨nk, hnk⟩ := Option.ne_none_iff_exists'.mp (mt keyLengthOf_eq_none_iff.mp (bne_iff_ne.mp hkl))
    have h := beq_iff_eq.mp hlen
    exact .inr ⟨rfl, .inr ⟨_, _, _, .loadKey kl nk operand hnk h, exec_loadKey hnk h⟩⟩
  | loadIv operand =>
    have h := beq_iff_eq.mp hw
    exact .inr ⟨rfl, .inr ⟨_, _, _, .loadIv operand h, exec_loadIv h⟩⟩
  | init dir ivp operand =>
    obtain rfl := List.eq_nil_of_length_eq_zero (beq_iff_eq.mp hw)
    by_cases hk : s.keyNk = .none
    · exact .inl ⟨.nokey, if_pos hk, exec_init_nokey rfl hk⟩
    · exact .inr ⟨if_neg hk, .inr ⟨_, _, _, .init dir ivp hk, exec_init rfl hk⟩⟩
  | update operand =>
    by_cases h : streaming s
    · have hns := mt not_streaming_iff.mpr (not_not.mpr h)
      exact .inr ⟨if_neg hns, .inr ⟨_, _, _, .update operand h, exec_update h⟩⟩
    · exact .inl ⟨.state, if_pos (not_streaming_iff.mp h), exec_update_state h⟩
  | final operand =>
    by_cases h : streaming s
    · have hns := mt not_streaming_iff.mpr (not_not.mpr h)
      cases hd : s.dir with
      | enc =>
        exact .inr ⟨by simp [stateError, hns, hd], .inr ⟨_, _, _, .finalEnc operand h hd, exec_final_enc h hd⟩⟩
      | dec =>
        by_cases hl : (s.data.length + operand.length) % 16 = 0
        · exact .inr ⟨by simp [stateError, hns, hd, hl],
            .inr ⟨_, _, _, .finalDec operand h hd hl, exec_final_dec h hd hl⟩⟩
        · exact .inl ⟨.partialBlock, by simp [stateError, hns, hd, hl], exec_final_partial h hd hl⟩
    · exact .inl ⟨.state, if_pos (not_streaming_iff.mp h), exec_final_state h⟩
  | encBlock operand =>
    have h := beq_iff_eq.mp hw
    cases hv : s.ksValid with
    | true => exact .inr ⟨by simp [stateError, hv], .inr ⟨_, _, _, .encBlock operand h hv, exec_encBlock h hv⟩⟩
    | false => exact .inl ⟨.nokey, if_pos hv, exec_encBlock_nokey h hv⟩
  | decBlock operand =>
    have h := beq_iff_eq.mp hw
    cases hv : s.ksValid with
    | true => exact .inr ⟨by simp [stateError, hv], .inr ⟨_, _, _, .decBlock operand h hv, exec_decBlock h hv⟩⟩
    | false => exact .inl ⟨.nokey, if_pos hv, exec_decBlock_nokey h hv⟩
  | pad operand => exact .inr ⟨rfl, .inr ⟨_, _, _, .pad operand, exec_pad⟩⟩
  | unpad operand => exact .inr ⟨rfl, .inr ⟨_, _, _, .unpad operand, exec_unpad⟩⟩

/-- A received command raises exactly the error it reports (R212). -/
theorem exec_of_command {cmd : Word} {operand : Bytes} {i : Instr} (h : decode cmd operand = .command i) (s : State) :
    (∃ code, reportedError s cmd = some code ∧ exec i s = .next (raiseError code s)) ∨
    (reportedError s cmd = none ∧ ((i = .status [] ∧ exec i s = .next (respond [] s)) ∨
      ∃ out u s', Effect s i out u s' ∧ exec i s = .next (complete out u s'))) := by
  rw [reportedError_of_command h]
  cases hw : i.wf with
  | true => exact exec_of_wf hw s
  | false => exact .inl ⟨_, rfl, exec_of_not_wf (sendable_of_decode h) hw s⟩

/-- The output of a command that completes, by its opcode (R79). -/
theorem Effect.output_length {s s' : State} {i : Instr} {out : Bytes} {u : Bool} (h : Effect s i out u s') :
    ((EncodedFields.fields i).1 < 4 → out = []) ∧
    ((EncodedFields.fields i).1 = 6 ∨ (EncodedFields.fields i).1 = 7 → out.length = 16) := by
  cases h <;> simp [EncodedFields.fields]

/-- Settles O5: an error and a `STATUS` have an empty response, and a command that completes answers its output. -/
theorem onlyDataCommandsEmit : Obligations.OnlyDataCommandsEmit := by
  intro s rest cmd operand hlen
  obtain ⟨code, hdec, herr⟩ | ⟨i, hdec, -, -⟩ := decode_cases hlen
  · have hrep : reportedError s cmd = some code := by rw [reportedError, herr]
    exact ⟨raiseError code { s with inputs := rest }, [], step_of_raises rfl hdec, rfl, fun _ => rfl, fun _ => rfl,
      fun hn => by simp [hrep] at hn⟩
  have hopc := opcField_of_command hdec
  have hstep : step { s with inputs := .command cmd operand :: rest } = exec i { s with inputs := rest } :=
    step_of_command rfl hdec
  have hrep : reportedError { s with inputs := rest } cmd = reportedError s cmd := rfl
  rw [hstep, ← hrep]
  obtain ⟨code, herr, he⟩ | ⟨hnone, ⟨rfl, he⟩ | ⟨out, u, s', hf, he⟩⟩ :=
    exec_of_command hdec { s with inputs := rest }
  · exact ⟨_, [], he, rfl, fun _ => rfl, fun _ => rfl, fun hn => by simp [herr] at hn⟩
  · exact ⟨_, [], he, rfl, fun _ => rfl, fun _ => rfl, fun _ h67 => by simp [hopc, EncodedFields.fields] at h67⟩
  · obtain ⟨-, hresp, -⟩ := hf.frame
    obtain ⟨hnone4, h16⟩ := hf.output_length
    rw [hopc]
    exact ⟨_, out, he, congrArg (· ++ [_]) hresp, fun hn => absurd hnone hn, hnone4, fun _ => h16⟩

end Sys2Proof.Machine
end

section
/-! The pseudo-commands (spec/30_encoding.md R81): the stream commands of a message carry it in order. -/

namespace Sys2Proof.Machine

/-- A stream that carries a message: well-formed `UPDATE` commands and a `FINAL` whose operands joined are the message,
with no `UPDATE` where one command can carry it. -/
def Carries (cmds : List Instr) (message : Bytes) : Prop :=
  ∃ (chunks : List Bytes) (last : Bytes), cmds = chunks.map Instr.update ++ [.final last] ∧
    chunks.flatten ++ last = message ∧ (message.length ≤ Config.lenMax → chunks = []) ∧ ∀ i ∈ cmds, i.wf = true

theorem carries_final {m : Bytes} (hm : m.length ≤ Config.lenMax) : Carries [.final m] m :=
  ⟨[], m, rfl, rfl, fun _ => rfl, List.forall_mem_singleton.mpr (decide_eq_true hm)⟩

theorem carries_update_cons {m : Bytes} {cmds : List Instr} (hm : ¬ m.length ≤ Config.lenMax)
    (h : Carries cmds (m.drop Config.lenMax)) : Carries (.update (m.take Config.lenMax) :: cmds) m := by
  obtain ⟨chunks, last, rfl, hjoin, -, hwf⟩ := h
  refine ⟨m.take Config.lenMax :: chunks, last, rfl, ?_, fun hle => absurd hle hm, ?_⟩
  · rw [List.flatten_cons, List.append_assoc, hjoin, List.take_append_drop]
  · exact List.forall_mem_cons.mpr ⟨decide_eq_true (List.length_take_le _ m), hwf⟩

/-- The bound on the recursion is enough where it is the number of full chunks. -/
theorem streamCommands_carries (n : Nat) (m : Bytes) (hn : m.length / Config.lenMax ≤ n) :
    Carries (streamCommands n m) m := by
  induction n generalizing m with
  | zero =>
    unfold Config.lenMax at hn
    exact carries_final (show m.length ≤ 65535 by omega)
  | succ n ih =>
    by_cases hm : m.length ≤ Config.lenMax
    · rw [streamCommands, if_pos hm]
      exact carries_final hm
    · rw [streamCommands, if_neg hm]
      refine carries_update_cons hm (ih _ ?_)
      rw [List.length_drop]
      unfold Config.lenMax at hn ⊢
      omega

/-- Settles O56: the three set-up commands before the stream of the message. -/
theorem pseudoCommandsCarryTheMessage : Obligations.PseudoCommandsCarryTheMessage := by
  intro dir kl key iv message hkl hkey hiv
  obtain ⟨chunks, last, hstream, hjoin, hshort, hwf⟩ :=
    streamCommands_carries (message.length / Config.lenMax) message le_rfl
  refine ⟨chunks, last, ?_, hjoin, hshort, ?_⟩
  · rw [pseudoCommand, hstream, List.append_assoc]
  · have hsetup : ∀ i ∈ [Instr.loadKey kl key, .loadIv iv, .init dir true []], i.wf = true := by
      simpa [Instr.wf, hkey, hiv] using hkl
    exact List.forall_mem_append.mpr ⟨hsetup, hwf⟩

end Sys2Proof.Machine
end

section
/-! Arithmetic in GF(2^8) (spec/40_aes_tables.md R100 to R102): `xtime` and `gmul` are additive in each argument and
every byte is built from 1 by `^^^` and `xtime`, so the laws of the product are checked there alone. -/

namespace Sys2Proof.Machine

/-! ### `xtime` (R100) -/

theorem xtime_eq_ofNat (b : Byte) :
    xtime b = BitVec.ofNat 8 (if b.toNat < 128 then 2 * b.toNat else 2 * b.toNat ^^^ 0x11B) := by
  rw [← BitVec.toNat_inj]
  unfold xtime
  split <;> simp [Nat.shiftLeft_eq, Nat.mul_comm]

/-- The reduction by `0x11B` on 8 bits: the bit shifted out adds `0x1B`. -/
theorem xtime_eq_xor (b : Byte) : xtime b = b <<< 1 ^^^ if b.msb then 0x1B else 0 := by
  have h : b.toNat < 128 ↔ b.msb = false := by
    rw [BitVec.msb_eq_false_iff_two_mul_lt]
    omega
  unfold xtime
  cases hb : b.msb <;> simp [h, hb]

theorem xtime_xor (a b : Byte) : xtime (a ^^^ b) = xtime a ^^^ xtime b := by
  have hmsb : (if (a ^^^ b).msb then 0x1B else 0 : Byte) =
      (if a.msb then 0x1B else 0) ^^^ if b.msb then 0x1B else 0 := by
    rw [BitVec.msb_xor]
    cases a.msb <;> cases b.msb <;> rfl
  rw [xtime_eq_xor, xtime_eq_xor, xtime_eq_xor, BitVec.shiftLeft_xor_distrib, hmsb]
  ac_rfl

/-- A byte is its lowest bit and `xtime` of its other bits. -/
theorem eq_xtime_ushiftRight_xor (b : Byte) : b = xtime (b >>> 1) ^^^ if b.getLsbD 0 then 1 else 0 := by
  have hmsb : (b >>> 1).msb = false := by simp [BitVec.msb_ushiftRight]
  rw [xtime_eq_xor, hmsb]
  ext i hi
  cases i with
  | zero => cases hb : b.getLsbD 0 <;> simp_all
  | succ i => cases hb : b.getLsbD 0 <;> simp [Nat.add_comm, BitVec.getLsbD_eq_getElem hi]

/-- Every byte is a polynomial in `x`, built from 1 by `^^^` and `xtime`; 0 is `1 ^^^ 1`. -/
theorem byte_induction {P : Byte → Prop} (one : P 1#8) (xor : ∀ a b, P a → P b → P (a ^^^ b))
    (xtime : ∀ a, P a → P (xtime a)) (b : Byte) : P b := by
  have zero : P 0#8 := xor 1#8 1#8 one one
  have h : ∀ n (b : Byte), b.toNat < 2 ^ n → P b := by
    intro n
    induction n with
    | zero =>
      intro b hb
      obtain rfl : b = 0#8 := BitVec.eq_of_toNat_eq (Nat.lt_one_iff.mp hb)
      exact zero
    | succ n ih =>
      intro b hb
      rw [eq_xtime_ushiftRight_xor b]
      refine xor _ _ (xtime _ (ih _ ?_)) ?_
      · rw [BitVec.toNat_ushiftRight, Nat.shiftRight_eq_div_pow]
        omega
      · split
        · exact one
        · exact zero
  exact h 8 b b.isLt

/-! ### The loop of `gmul` (R101) -/

theorem gmulLoop_xor_left (n : Nat) (p q b r t : Byte) :
    gmulLoop n (p ^^^ q) b (r ^^^ t) = gmulLoop n p b r ^^^ gmulLoop n q b t := by
  induction n generalizing p q b r t with
  | zero => rfl
  | succ n ih =>
    simp only [gmulLoop, xtime_xor, ← ih]
    congr 1
    split
    · ac_rfl
    · rfl

theorem gmulLoop_xor_right (n : Nat) (p b c r t : Byte) :
    gmulLoop n p (b ^^^ c) (r ^^^ t) = gmulLoop n p b r ^^^ gmulLoop n p c t := by
  induction n generalizing p b c r t with
  | zero => rfl
  | succ n ih =>
    have hbit : (if (b ^^^ c).getLsbD 0 then r ^^^ t ^^^ p else r ^^^ t) =
        (if b.getLsbD 0 then r ^^^ p else r) ^^^ if c.getLsbD 0 then t ^^^ p else t := by
      rw [BitVec.getLsbD_xor]
      cases b.getLsbD 0 <;> cases c.getLsbD 0
      · rfl
      · exact BitVec.xor_assoc r t p
      · show r ^^^ t ^^^ p = r ^^^ p ^^^ t
        ac_rfl
      · show r ^^^ t = r ^^^ p ^^^ (t ^^^ p)
        rw [BitVec.xor_comm t p, BitVec.xor_assoc, ← BitVec.xor_assoc p p, BitVec.xor_self, BitVec.zero_xor]
    simp only [gmulLoop, BitVec.ushiftRight_xor_distrib, ← ih, hbit]

theorem gmulLoop_xtime (n : Nat) (p b r : Byte) :
    gmulLoop n (xtime p) b (xtime r) = xtime (gmulLoop n p b r) := by
  induction n generalizing p b r with
  | zero => rfl
  | succ n ih =>
    rw [gmulLoop, gmulLoop, ← ih]
    congr 1
    split
    · rw [xtime_xor]
    · rfl

/-! ### The ring laws -/

theorem gmul_xor_left (a b c : Byte) : gmul (a ^^^ b) c = gmul a c ^^^ gmul b c :=
  gmulLoop_xor_left 8 a b c 0 0

theorem gmul_xor_right (a b c : Byte) : gmul a (b ^^^ c) = gmul a b ^^^ gmul a c :=
  gmulLoop_xor_right 8 a b c 0 0

theorem gmul_xtime_left (a b : Byte) : gmul (xtime a) b = xtime (gmul a b) :=
  gmulLoop_xtime 8 a b 0

@[simp] theorem gmul_zero_left (b : Byte) : gmul 0#8 b = 0#8 := by
  have h := gmul_xor_left b b b
  rwa [BitVec.xor_self, BitVec.xor_self] at h

/-- `1 = 3 ^ 2`, and the products by 2 and 3 differ by the byte itself. -/
@[simp] theorem gmul_one_left (b : Byte) : gmul 1#8 b = b := by
  obtain ⟨h2, h3, -⟩ := gmul_small b
  calc gmul 1 b = gmul 2 b ^^^ gmul 3 b := gmul_xor_left 2 3 b
    _ = xtime b ^^^ (xtime b ^^^ b) := by rw [h2, h3]
    _ = b := by simp

@[simp] theorem gmul_one_right (a : Byte) : gmul a 1#8 = a := by
  induction a using byte_induction with
  | one => exact gmul_one_left 1
  | xor a b iha ihb => rw [gmul_xor_left, iha, ihb]
  | xtime a ih => rw [gmul_xtime_left, ih]

theorem gmul_xtime_right (a b : Byte) : gmul a (xtime b) = xtime (gmul a b) := by
  induction a using byte_induction with
  | one => simp
  | xor a a' iha iha' => simp only [gmul_xor_left, xtime_xor, iha, iha']
  | xtime a ih => simp only [gmul_xtime_left, ih]

theorem gmul_comm (a b : Byte) : gmul a b = gmul b a := by
  induction a using byte_induction with
  | one => simp
  | xor a a' iha iha' => rw [gmul_xor_left, gmul_xor_right, iha, iha']
  | xtime a ih => rw [gmul_xtime_left, gmul_xtime_right, ih]

theorem gmul_assoc (a b c : Byte) : gmul (gmul a b) c = gmul a (gmul b c) := by
  induction a using byte_induction with
  | one => simp
  | xor a a' iha iha' => simp only [gmul_xor_left, iha, iha']
  | xtime a ih => simp only [gmul_xtime_left, ih]

/-- Settles O12: the laws above, each by the induction on how a byte is built. -/
theorem gmulIsAFieldProduct : Obligations.GmulIsAFieldProduct :=
  ⟨fun b => (gmul_small b).1, xtime_eq_ofNat, gmul_comm, gmul_assoc, gmul_one_left, gmul_zero_left, gmul_xor_right⟩

/-! ### The inverse (R102) -/

/-- `0x11B` is irreducible (log entry 13), checked as the power 254 of R102 inverting each of the 255 bytes. -/
theorem gmul_ginv : ∀ {b : Byte}, b ≠ 0 → gmul b (ginv b) = 1 := by
  decide +kernel

theorem eq_of_gmul_eq_one {b y z : Byte} (hy : gmul b y = 1) (hz : gmul b z = 1) : y = z := by
  calc y = gmul 1 y := (gmul_one_left y).symm
    _ = gmul z (gmul b y) := by rw [← hz, gmul_comm b, gmul_assoc]
    _ = gmul z 1 := by rw [hy]
    _ = z := gmul_one_right z

/-- Settles O13: the power 254 is an inverse, and a commutative product has no second one. -/
theorem ginvIsTheUniqueInverse : Obligations.GinvIsTheUniqueInverse := by
  refine ⟨by decide, fun b hb y => ⟨fun h => eq_of_gmul_eq_one h (gmul_ginv hb), ?_⟩⟩
  rintro rfl
  exact gmul_ginv hb

end Sys2Proof.Machine
end

section
/-! The ROM contents (spec/40_aes_tables.md R103 to R106): the listings against their formulas, the first table of
each direction by its listing and the other three by the rotations of R105 and R106. -/

namespace Sys2Proof.Machine

/-! ### The S-box and its inverse (R103, R104) -/

/-- Folding bits 11:8 of a shifted byte onto bits 3:0 rotates the byte. -/
theorem fold_shiftLeft (y : Byte) {n : Nat} (h : n ≤ 4) :
    ((y.setWidth 12 <<< n) >>> 8).setWidth 8 ^^^ (y.setWidth 12 <<< n).setWidth 8 = y.rotateLeft n := by
  ext i hi
  simp only [BitVec.getElem_xor, BitVec.getElem_setWidth, BitVec.getLsbD_ushiftRight, BitVec.getLsbD_shiftLeft,
    BitVec.getElem_rotateLeft, BitVec.getLsbD_setWidth]
  grind

/-- The two forms of R103: the fold of the sum is the sum of the folds. -/
theorem sboxFormula_eq_rotateLeft (x : Byte) : sboxFormula x = ginv x ^^^ (ginv x).rotateLeft 1 ^^^
    (ginv x).rotateLeft 2 ^^^ (ginv x).rotateLeft 3 ^^^ (ginv x).rotateLeft 4 ^^^ 0x63 := by
  have hfold (n : Nat) (h : n ≤ 4) := fold_shiftLeft (ginv x) h
  have hlow : ((ginv x).setWidth 12).setWidth 8 = ginv x := by simp
  have hhigh : ((ginv x).setWidth 12 >>> 8).setWidth 8 = 0#8 := by
    ext i hi
    simp
  rw [← hfold 1 (by decide), ← hfold 2 (by decide), ← hfold 3 (by decide), ← hfold 4 (by decide)]
  simp only [sboxFormula, BitVec.ushiftRight_xor_distrib, BitVec.setWidth_xor]
  rw [hhigh, hlow, BitVec.zero_xor]
  ac_rfl

theorem sbox_eq_sboxFormula : ∀ x, sbox x = sboxFormula x := by
  decide +kernel

theorem invSbox_sbox : Function.LeftInverse invSbox sbox := by
  unfold Function.LeftInverse
  decide +kernel

/-- A left inverse on a finite type inverts on the right too. -/
theorem sbox_invSbox : Function.RightInverse invSbox sbox :=
  invSbox_sbox.rightInverse_of_surjective (Finite.surjective_of_injective invSbox_sbox.injective)

/-! ### The T-tables (R105, R106) -/

theorem rotateRight_rotateRight (w : Word) (m n : Nat) :
    (w.rotateRight m).rotateRight n = w.rotateRight (m + n) := by
  ext i hi
  simp only [BitVec.getElem_rotateRight]
  grind

theorem rotateRight_wordOf (b0 b1 b2 b3 : Byte) : (wordOf b0 b1 b2 b3).rotateRight 8 = wordOf b3 b0 b1 b2 := by
  rw [wordOf_eq_append, wordOf_eq_append]
  ext i hi
  simp only [BitVec.getElem_rotateRight]
  grind

theorem subMix_succ (k : Nat) (x : Byte) : subMix (k + 1) x = (subMix k x).rotateRight 8 :=
  (rotateRight_rotateRight _ _ _).symm

theorem invSubMix_succ (k : Nat) (y : Byte) : invSubMix (k + 1) y = (invSubMix k y).rotateRight 8 :=
  (rotateRight_rotateRight _ _ _).symm

theorem subMix_zero : ∀ x, subMix 0 x = wordOf (gmul 2 (sbox x)) (sbox x) (sbox x) (gmul 3 (sbox x)) := by
  decide +kernel

theorem invSubMix_zero : ∀ y, invSubMix 0 y =
    wordOf (gmul 0x0e (invSbox y)) (gmul 0x09 (invSbox y)) (gmul 0x0d (invSbox y)) (gmul 0x0b (invSbox y)) := by
  decide +kernel

/-- Settles O14: the listings of the two S-boxes and of the first table of each direction, and the rotations. -/
theorem romContentsFollowTheFormulas : Obligations.RomContentsFollowTheFormulas := by
  refine ⟨sbox_eq_sboxFormula, fun x => (sbox_eq_sboxFormula x).trans (sboxFormula_eq_rotateLeft x), invSbox_sbox,
    sbox_invSbox, fun x => ?_, fun y => ?_⟩
  · simp [subMix_succ, subMix_zero, rotateRight_wordOf]
  · simp [invSubMix_succ, invSubMix_zero, rotateRight_wordOf]

end Sys2Proof.Machine
end

section
/-! InvMixColumns (spec/41_aes_engine.md R124; spec/40_aes_tables.md R106): the bytes of a word, the products of the
inverse tables on an S-box output, and `InvMixWord` as a product of matrices. -/

namespace Sys2Proof.Machine

/-- R9: the bytes of the word of four bytes. -/
@[simp] theorem byteOf_wordOf (b0 b1 b2 b3 : Byte) {k : Nat} (h : k < 4) :
    byteOf (wordOf b0 b1 b2 b3) k = [b0, b1, b2, b3].getD k 0 := by
  rw [← getD_wordBytes _ h, wordBytes_wordOf]

theorem byteOf_xor (v w : Word) (k : Nat) : byteOf (v ^^^ w) k = byteOf v k ^^^ byteOf w k := by
  simp only [byteOf, BitVec.ushiftRight_xor_distrib, BitVec.setWidth_xor]

theorem wordOf_xor (a0 a1 a2 a3 b0 b1 b2 b3 : Byte) :
    wordOf a0 a1 a2 a3 ^^^ wordOf b0 b1 b2 b3 = wordOf (a0 ^^^ b0) (a1 ^^^ b1) (a2 ^^^ b2) (a3 ^^^ b3) := by
  rw [← wordOf_byteOf (wordOf a0 a1 a2 a3 ^^^ wordOf b0 b1 b2 b3)]
  simp [byteOf_xor]

/-- R124: `InvMixWord` is the product by the InvMixColumns matrix. -/
theorem invMixWord_wordOf (b0 b1 b2 b3 : Byte) : invMixWord (wordOf b0 b1 b2 b3) = wordOf
    (gmul 0x0e b0 ^^^ gmul 0x0b b1 ^^^ gmul 0x0d b2 ^^^ gmul 0x09 b3)
    (gmul 0x09 b0 ^^^ gmul 0x0e b1 ^^^ gmul 0x0b b2 ^^^ gmul 0x0d b3)
    (gmul 0x0d b0 ^^^ gmul 0x09 b1 ^^^ gmul 0x0e b2 ^^^ gmul 0x0b b3)
    (gmul 0x0b b0 ^^^ gmul 0x0d b1 ^^^ gmul 0x09 b2 ^^^ gmul 0x0e b3) := by
  simp [invMixWord, invSubMix_succ, invSubMix_zero, rotateRight_wordOf, invSbox_sbox _, wordOf_xor]

/-- Settles O18: the columns of R106 on each S-box output, which `INVSBOX` undoes; the zero word has zero products. -/
theorem invMixWordIsInvMixColumns : Obligations.InvMixWordIsInvMixColumns := by
  refine ⟨?_, invMixWord_wordOf⟩
  decide

end Sys2Proof.Machine
end

section
/-! The key schedules (spec/41_aes_engine.md R120 to R123): each forward word by the recurrence of R120, and each
inverse word by its round and its place in the round. -/

namespace Sys2Proof.Machine

/-! ### `Expand` (R120 to R122) -/

theorem rotateLeft_wordOf (b0 b1 b2 b3 : Byte) : (wordOf b0 b1 b2 b3).rotateLeft 8 = wordOf b1 b2 b3 b0 := by
  rw [wordOf_eq_append, wordOf_eq_append]
  ext i hi
  simp only [BitVec.getElem_rotateLeft]
  grind

/-- R122: `RotWord` moves each byte one place up. -/
theorem rotWord_eq_wordOf (t : Word) : rotWord t = wordOf (byteOf t 1) (byteOf t 2) (byteOf t 3) (byteOf t 0) := by
  rw [rotWord, ← rotateLeft_wordOf, wordOf_byteOf]

/-- A later step of R120's loop leaves the words before it. -/
theorem getD_expandWords_of_le (key : List Word) (nk : Nat) {i m n : Nat} (hi : i < m) (hmn : m ≤ n) :
    (expandWords key nk n).getD i 0 = (expandWords key nk m).getD i 0 := by
  induction n, hmn using Nat.le_induction with
  | base => rfl
  | succ n hmn ih =>
    rw [expandWords, List.getD_append _ _ _ _ (by rw [expandWords_length]; omega), ih]

/-- Word `i` of the schedule is the body of R120's loop on the schedule itself. -/
theorem getD_expandWords (key : List Word) {nk i n : Nat} (hnk : 0 < nk) (hi : i < n) :
    (expandWords key nk n).getD i 0 = nextWord key nk (expandWords key nk n) i := by
  have hlast : (expandWords key nk (i + 1)).getD i 0 = nextWord key nk (expandWords key nk i) i := by
    simp [expandWords]
  rw [getD_expandWords_of_le key nk (Nat.lt_succ_self i) hi, hlast]
  unfold nextWord
  split
  · rfl
  · rw [getD_expandWords_of_le key nk (i := i - 1) (m := i) (n := n) (by omega) (by omega),
      getD_expandWords_of_le key nk (i := i - nk) (m := i) (n := n) (by omega) (by omega)]

/-- R120's `NR = NK + 6`. -/
theorem KeyLength.rounds_count {nk : KeyLength} (h : nk ≠ .none) : nk.rounds.count = nk.words + 6 := by
  cases nk
  · exact absurd rfl h
  all_goals rfl

theorem KeyLength.words_pos {nk : KeyLength} (h : nk ≠ .none) : 0 < nk.words := by
  cases nk
  · exact absurd rfl h
  all_goals decide

/-- R121: the index of the round constant of a schedule word is in 1 to 10. -/
theorem KeyLength.rcon_index {nk : KeyLength} (h : nk ≠ .none) {i : Nat} (hi : nk.words ≤ i)
    (hn : i < 4 * (nk.words + 6 + 1)) : 1 ≤ i / nk.words ∧ i / nk.words ≤ 10 := by
  cases nk
  · exact absurd rfl h
  all_goals simp only [KeyLength.words] at *; omega

/-- Settles O16: every word is the body of R120's loop, read in its first branch or in its second. -/
theorem forwardScheduleObeysItsRecurrence : Obligations.ForwardScheduleObeysItsRecurrence := by
  refine ⟨rfl, rotWord_eq_wordOf, fun _ => rfl, fun key nk hnk _ => ?_⟩
  have hlen : (forwardWords key nk).length = 4 * (nk.words + 6 + 1) := by
    rw [forwardWords_length, KeyLength.rounds_count hnk]
  refine ⟨KeyLength.rounds_count hnk, hlen, fun i hi => ?_⟩
  have hword : (forwardWords key nk).getD i 0 = nextWord key nk.words (forwardWords key nk) i :=
    getD_expandWords key (KeyLength.words_pos hnk) (by rwa [forwardWords_length] at hi)
  refine ⟨fun h => ?_, fun h => ?_, fun h _ => KeyLength.rcon_index hnk h (hlen ▸ hi)⟩
  · rw [hword, nextWord, if_pos h]
  · rw [hword, nextWord, if_neg (Nat.not_lt.mpr h)]

/-! ### `InvExpand` (R123) -/

/-- Element `j` of chunk `r` where every chunk has the same length `c`. -/
theorem getD_flatMap_range {α : Type} (f : Nat → List α) {c : Nat} (hf : ∀ r, (f r).length = c) (d : α)
    {n r j : Nat} (hr : r < n) (hj : j < c) :
    ((List.range n).flatMap f).getD (c * r + j) d = (f r).getD j d := by
  induction n with
  | zero => exact absurd hr (Nat.not_lt_zero r)
  | succ n ih =>
    have hlen : ((List.range n).flatMap f).length = c * n := by simp [hf, Nat.mul_comm]
    rw [List.range_succ, List.flatMap_append, List.flatMap_singleton]
    rcases Nat.lt_succ_iff_lt_or_eq.mp hr with hlt | rfl
    · have hin : c * r + j < c * n := calc
        c * r + j < c * (r + 1) := Nat.add_lt_add_left hj _
        _ ≤ c * n := Nat.mul_le_mul_left c hlt
      rw [List.getD_append _ _ _ _ (hlen ▸ hin), ih hlt]
    · rw [List.getD_append_right _ _ _ _ (by omega), hlen, Nat.add_sub_cancel_left]

/-- R123's word order `p = (0, 3, 2, 1)`. -/
def invWordOrder (j : Nat) : Nat := if j = 0 then 0 else 4 - j

/-- R123: word `j` of inverse round `r`. -/
theorem getD_invExpandWords (w : List Word) {nr r j : Nat} (hr : r ≤ nr) (hj : j < 4) :
    (invExpandWords w nr).getD (4 * r + j) 0 = invRoundWord w nr r (invWordOrder j) := by
  rw [invExpandWords, getD_flatMap_range (invRound w nr) (fun _ => rfl) 0 (Nat.lt_succ_of_le hr) hj]
  match j, hj with
  | 0, _ | 1, _ | 2, _ | 3, _ => rfl

/-- R123's single-index walk: word `m` comes from `q = 4(NR+1) - m`, from the word 4 before it where a round begins. -/
theorem getD_invExpandWords_walk (w : List Word) {nr m : Nat} (hm : m < 4 * (nr + 1)) :
    (invExpandWords w nr).getD m 0 =
      (let q := 4 * (nr + 1) - m
       let v := if m % 4 = 0 then w.getD (q - 4) 0 else w.getD q 0
       if m < 4 ∨ q ≤ 4 then v else invMixWord v) := by
  have hdiv : 4 * (m / 4) + m % 4 = m := Nat.div_add_mod m 4
  have hword := getD_invExpandWords w (nr := nr) (r := m / 4) (j := m % 4) (by omega) (by omega)
  rw [hdiv] at hword
  have hsrc : w.getD (4 * (nr - m / 4) + invWordOrder (m % 4)) 0 =
      if m % 4 = 0 then w.getD (4 * (nr + 1) - m - 4) 0 else w.getD (4 * (nr + 1) - m) 0 := by
    unfold invWordOrder
    split <;> (congr 1; omega)
  have hround : m / 4 = 0 ∨ m / 4 = nr ↔ m < 4 ∨ 4 * (nr + 1) - m ≤ 4 := by omega
  simp only [hword, invRoundWord, hsrc, hround]

/-- Settles O17: a word by its round and place, and the walk, which is the same word. -/
theorem inverseScheduleReordersAndMixes : Obligations.InverseScheduleReordersAndMixes := by
  intro w nr _ iw p
  exact ⟨invExpandWords_length w nr, fun r j hr hj => getD_invExpandWords w hr hj,
    fun m hm => getD_invExpandWords_walk w hm⟩

end Sys2Proof.Machine
end

section
/-! The rounds of the block transform (spec/41_aes_engine.md R125 to R127): the state after each round, and `Crypt` as
the final round of the last of them. -/

namespace Sys2Proof.Machine

/-- The state of `Crypt` after round `r`; round 0 is the initial key addition (R125). -/
def roundState (K : Vector Word 60) (T : Nat → Byte → Word) (b : Block) : Nat → Block
  | 0 => Block.xor b (roundKey K 0)
  | r + 1 => middleRound T (roundState K T b r) (roundKey K (4 * (r + 1)))

section
variable (K : Vector Word 60) (T : Nat → Byte → Word) (S : Byte → Byte) (b : Block)

/-- The rounds that are left after round `r`. -/
theorem cryptRounds_roundState (n r : Nat) : cryptRounds K T S n (4 * (r + 1)) (roundState K T b r) =
    finalRound S (roundState K T b (r + n)) (roundKey K (4 * (r + n + 1))) := by
  induction n generalizing r with
  | zero => rfl
  | succ n ih =>
    have hround : r + 1 + n = r + (n + 1) := by omega
    rw [← hround]
    exact ih (r + 1)

/-- R125: `Crypt` of `n + 1` rounds is the final round after round `n`. -/
theorem crypt_succ (n : Nat) : crypt K (n + 1) T S b =
    finalRound S (roundState K T b n) (roundKey K (4 * (n + 1))) := by
  simpa [crypt, roundState] using cryptRounds_roundState K T S b n 0

end

/-- Four goals for the four words of a block. -/
theorem forall_lt_four {P : Nat → Prop} (h0 : P 0) (h1 : P 1) (h2 : P 2) (h3 : P 3) : ∀ i, i < 4 → P i
  | 0, _ => h0
  | 1, _ => h1
  | 2, _ => h2
  | 3, _ => h3

/-- R125 word by word: the words of the states after each round meet the equations. -/
theorem crypt_equations (K : Vector Word 60) {nr : Nat} (h : 1 ≤ nr) (T : Nat → Byte → Word) (S : Byte → Byte)
    (b : Block) : CryptEquations (fun k => K.getD k 0) nr T S (fun i => (blockWords b).getD i 0)
      (fun i => (blockWords (crypt K nr T S b)).getD i 0) := by
  obtain ⟨n, rfl⟩ := Nat.exists_eq_add_of_le' h
  refine ⟨fun r i => (blockWords (roundState K T b r)).getD i 0, ?_, fun r hr _ => ?_, ?_⟩
  · exact forall_lt_four rfl rfl rfl rfl
  · obtain ⟨r, rfl⟩ := Nat.exists_eq_add_of_le' hr
    exact forall_lt_four rfl rfl rfl rfl
  · rw [crypt_succ]
    exact forall_lt_four rfl rfl rfl rfl

/-- Settles O57: `DecryptBlock` swaps the words of its input and of its output around the same rounds. -/
theorem blockTransformsRunTheRounds : Obligations.BlockTransformsRunTheRounds := by
  intro K nr b h _
  exact ⟨⟨_, _, _, _, rfl, crypt_equations K h subMix sbox b⟩,
    ⟨_, _, _, _, rfl, crypt_equations K h invSubMix invSbox (swap24 b)⟩⟩

end Sys2Proof.Machine
end

section
/-! Decryption undoes encryption (spec/41_aes_engine.md R132): with the schedule of R123, round `r` of the decryption
leaves the state of the encryption before its round `NR - r`, up to the S-box layer and the word order of R127. -/

namespace Sys2Proof.Machine

/-! ### Words: MixColumns and its inverse -/

theorem invMixWord_xor (v w : Word) : invMixWord (v ^^^ w) = invMixWord v ^^^ invMixWord w := by
  rw [← wordOf_byteOf v, ← wordOf_byteOf w, wordOf_xor]
  simp only [invMixWord_wordOf, wordOf_xor, gmul_xor_right]
  congr 1 <;> ac_rfl

/-- The InvMixColumns matrix is circulant. -/
theorem invMixWord_rotateRight (t : Word) : invMixWord (t.rotateRight 8) = (invMixWord t).rotateRight 8 := by
  rw [← wordOf_byteOf t, rotateRight_wordOf, invMixWord_wordOf, invMixWord_wordOf, rotateRight_wordOf]
  congr 1 <;> ac_rfl

theorem invMixWord_subMix_zero : ∀ x, invMixWord (subMix 0 x) = wordOf (sbox x) 0 0 0 := by
  decide +kernel

/-- InvMixColumns undoes the MixColumns of the forward tables and leaves their S-box outputs. -/
theorem invMixWord_mixColumn (a b c d : Word) : invMixWord (mixColumn subMix a b c d) = subColumn sbox a b c d := by
  simp [mixColumn, subColumn, invMixWord_xor, subMix_succ, invMixWord_rotateRight, invMixWord_subMix_zero,
    rotateRight_wordOf, wordOf_xor]

/-- The inverse tables are the `INVSBOX` outputs through InvMixColumns. -/
theorem mixColumn_invSubMix (a b c d : Word) : mixColumn invSubMix a b c d = invMixWord (subColumn invSbox a b c d) := by
  simp [mixColumn, subColumn, invMixWord, sbox_invSbox _]

/-! ### Blocks: the layers of a round -/

/-- The S-box layer and the byte gather of R125 on all four words. -/
def subShift (S : Byte → Byte) (s : Block) : Block :=
  ⟨subColumn S s.w0 s.w1 s.w2 s.w3, subColumn S s.w1 s.w2 s.w3 s.w0, subColumn S s.w2 s.w3 s.w0 s.w1,
    subColumn S s.w3 s.w0 s.w1 s.w2⟩

/-- `InvMixWord` on all four words. -/
def invMixBlock (s : Block) : Block := ⟨invMixWord s.w0, invMixWord s.w1, invMixWord s.w2, invMixWord s.w3⟩

theorem finalRound_eq (S : Byte → Byte) (s k : Block) : finalRound S s k = Block.xor (subShift S s) k := rfl

section
variable (s k : Block)

@[simp] theorem xor_xor_cancel_right : Block.xor (Block.xor s k) k = s := by
  simp [Block.xor]

@[simp] theorem swap24_swap24 : swap24 (swap24 s) = s := rfl

theorem swap24_xor : swap24 (Block.xor s k) = Block.xor (swap24 s) (swap24 k) := rfl

theorem swap24_invMixBlock : swap24 (invMixBlock s) = invMixBlock (swap24 s) := rfl

theorem invMixBlock_xor : invMixBlock (Block.xor s k) = Block.xor (invMixBlock s) (invMixBlock k) := by
  simp only [invMixBlock, Block.xor, invMixWord_xor]

/-- A decrypting middle round is `INVSBOX` and the byte gather, InvMixColumns, and the key addition. -/
theorem middleRound_invSubMix :
    middleRound invSubMix s k = Block.xor (invMixBlock (subShift invSbox s)) k := by
  simp only [middleRound, mixColumn_invSubMix, invMixBlock, subShift]

/-- InvMixColumns of an encrypting middle round leaves its S-box layer and its mixed key. -/
theorem invMixBlock_middleRound_subMix :
    invMixBlock (middleRound subMix s k) = Block.xor (subShift sbox s) (invMixBlock k) := by
  rw [middleRound, invMixBlock_xor]
  simp only [invMixBlock, invMixWord_mixColumn, subShift]

/-- In the word order of R127 the same byte gather takes every byte back to its word. -/
@[simp] theorem subShift_swap24_subShift : subShift invSbox (swap24 (subShift sbox s)) = swap24 s := by
  simp [subShift, subColumn, swap24, invSbox_sbox _]

end

/-! ### Rounds -/

/-- `iks` is the inverse schedule of `ks` for `nr` rounds, block by block (R123). -/
structure InverseSchedule (ks iks : Vector Word 60) (nr : Nat) : Prop where
  first : roundKey iks 0 = swap24 (roundKey ks (4 * nr))
  inner : ∀ r, 0 < r → r < nr → roundKey iks (4 * r) = swap24 (invMixBlock (roundKey ks (4 * (nr - r))))
  last : roundKey iks (4 * nr) = swap24 (roundKey ks 0)

variable {ks iks : Vector Word 60} {n : Nat}

/-- Round `r` of the decryption has undone the rounds of the encryption after round `m = n - r`, but for that round's
S-box layer. -/
theorem InverseSchedule.roundState_encryptBlock (h : InverseSchedule ks iks (n + 1)) (b : Block) {r m : Nat}
    (hm : r + m = n) :
    roundState iks invSubMix (swap24 (encryptBlock ks (n + 1) b)) r =
      swap24 (subShift sbox (roundState ks subMix b m)) := by
  induction r generalizing m with
  | zero =>
    obtain rfl : m = n := by omega
    rw [roundState, encryptBlock, crypt_succ, finalRound_eq, h.first, swap24_xor, xor_xor_cancel_right]
  | succ r ih =>
    have hkey : roundKey iks (4 * (r + 1)) = swap24 (invMixBlock (roundKey ks (4 * (m + 1)))) := by
      rw [h.inner (r + 1) (by omega) (by omega), show n + 1 - (r + 1) = m + 1 by omega]
    rw [roundState, ih (m := m + 1) (by omega), middleRound_invSubMix, subShift_swap24_subShift, hkey,
      ← swap24_invMixBlock, roundState, invMixBlock_middleRound_subMix, ← swap24_xor, xor_xor_cancel_right]

theorem InverseSchedule.decryptBlock_encryptBlock (h : InverseSchedule ks iks (n + 1)) :
    Function.LeftInverse (decryptBlock iks (n + 1)) (encryptBlock ks (n + 1)) := by
  intro b
  rw [decryptBlock, crypt_succ, h.roundState_encryptBlock b (Nat.add_zero n), finalRound_eq, subShift_swap24_subShift,
    h.last, ← swap24_xor, roundState, xor_xor_cancel_right, swap24_swap24]

theorem block_finite : Finite Block :=
  Finite.of_injective (fun b => (b.w0, b.w1, b.w2, b.w3)) fun a b h => by
    simp only [Prod.mk.injEq] at h
    cases a
    cases b
    simpa using h

/-- Blocks are finitely many, so a left inverse is a right inverse. -/
theorem InverseSchedule.encryptBlock_decryptBlock (h : InverseSchedule ks iks (n + 1)) :
    Function.RightInverse (decryptBlock iks (n + 1)) (encryptBlock ks (n + 1)) :=
  have := block_finite
  h.decryptBlock_encryptBlock.rightInverse_of_surjective
    (Finite.surjective_of_injective h.decryptBlock_encryptBlock.injective)

/-! ### The schedules of a key -/

/-- A register file that has room for the words reads as the words, past its end too. -/
theorem HoldsWords.getD {file : Vector Word 60} {n : Nat} {w : List Word} (h : HoldsWords file n w) (hn : n ≤ 60)
    (k : Nat) : file.getD k 0 = w.getD k 0 := by
  obtain ⟨hlen, hfile⟩ := h
  have hout {k : Nat} (hk : n ≤ k) : w.getD k 0 = 0 := List.getD_eq_default _ _ (hlen.trans_le hk)
  by_cases hk : k < 60
  · have hword : file.getD k 0 = if k < n then w.getD k 0 else 0 := by
      simpa [Vector.getD, hk] using hfile ⟨k, hk⟩
    rw [hword]
    split
    · rfl
    · exact (hout (by omega)).symm
  · rw [hout (by omega)]
    simp [Vector.getD, hk]

theorem HoldsWords.roundKey {file : Vector Word 60} {n : Nat} {w : List Word} (h : HoldsWords file n w)
    (hn : n ≤ 60) (k : Nat) : roundKey file k = ⟨w.getD k 0, w.getD (k + 1) 0, w.getD (k + 2) 0, w.getD (k + 3) 0⟩ := by
  simp only [Machine.roundKey, h.getD hn]

/-- R123 block by block, in the registers. -/
theorem inverseSchedule_of_holdsWords {w : List Word} {nr : Nat} (hks : HoldsWords ks (4 * (nr + 1)) w)
    (hiks : HoldsWords iks (4 * (nr + 1)) (invExpandWords w nr)) (hn : 4 * (nr + 1) ≤ 60) :
    InverseSchedule ks iks nr := by
  have hkey {r : Nat} (hr : r ≤ nr) : roundKey iks (4 * r) = ⟨invRoundWord w nr r 0, invRoundWord w nr r 3,
      invRoundWord w nr r 2, invRoundWord w nr r 1⟩ := by
    have hword {j : Nat} (hj : j < 4) := getD_invExpandWords w hr hj
    rw [hiks.roundKey hn, Block.mk.injEq]
    exact ⟨hword (j := 0) (by decide), hword (j := 1) (by decide), hword (j := 2) (by decide),
      hword (j := 3) (by decide)⟩
  refine ⟨?_, fun r h0 hr => ?_, ?_⟩
  · rw [← Nat.mul_zero 4, hkey (Nat.zero_le nr), hks.roundKey hn]
    simp [invRoundWord, swap24]
  · rw [hkey hr.le, hks.roundKey hn]
    simp [invRoundWord, swap24, invMixBlock, h0.ne', hr.ne]
  · rw [hkey le_rfl, hks.roundKey hn]
    simp [invRoundWord, swap24]

theorem IsExpansion.inverseSchedule {s : State} {key : List Word} {nk : KeyLength} (h : IsExpansion s key nk) :
    ∃ n, s.nr.count = n + 1 ∧ InverseSchedule s.ks s.iks (n + 1) := by
  have hcount : s.nr.count = nk.words + 6 := h.rounds ▸ KeyLength.rounds_count h.loaded
  have hwords : nk.words ≤ 8 := by cases nk <;> decide
  exact ⟨nk.words + 5, hcount, hcount ▸ inverseSchedule_of_holdsWords h.forward h.inverse (by omega)⟩

/-- Settles O19: the registers hold a schedule and its inverse schedule, and they are determined by the key words. -/
theorem blockTransformsAreInverse : Obligations.BlockTransformsAreInverse := by
  refine ⟨fun s key nk h b => ?_, fun s s' key nk h h' => ?_⟩
  · obtain ⟨n, hn, hinv⟩ := h.inverseSchedule
    rw [hn]
    exact ⟨hinv.decryptBlock_encryptBlock b, hinv.encryptBlock_decryptBlock b⟩
  · have hnr : s.nr = s'.nr := h.rounds.trans h'.rounds.symm
    exact ⟨h.forward.unique (hnr ▸ h'.forward), h.inverse.unique (hnr ▸ h'.inverse), hnr⟩

end Sys2Proof.Machine
end

section
/-! The commands of the engine and `INIT` (spec/41_aes_engine.md R128 to R131): the state each one completes in. -/

namespace Sys2Proof.Machine

/-- R75: each `KL` but 3 is the code of a length, and R22's code of that length. -/
theorem exists_keyLengthOf {kl : BitVec 2} (h : kl ≠ 3) : ∃ nk, keyLengthOf kl = some nk ∧
    nk.words = 4 + 2 * kl.toNat ∧ (nkCode nk).toNat = kl.toNat + 1 := by
  have hkl : kl = 0 ∨ kl = 1 ∨ kl = 2 := by
    revert kl
    decide
  obtain rfl | rfl | rfl := hkl
  · exact ⟨.k128, rfl, rfl, rfl⟩
  · exact ⟨.k192, rfl, rfl, rfl⟩
  · exact ⟨.k256, rfl, rfl, rfl⟩

/-- R21, R51: each word of the key register is four bytes of an operand that holds `nk` words, 0 from word `nk` on. -/
theorem getElem_keyRegister {nk : Nat} {operand : Bytes} (h : 4 * nk ≤ operand.length) (i : Fin 8) :
    (keyRegister nk operand)[i] = if i.val < nk then
      wordOf (operand.getD (4 * i.val) 0) (operand.getD (4 * i.val + 1) 0) (operand.getD (4 * i.val + 2) 0)
        (operand.getD (4 * i.val + 3) 0) else 0 := by
  simp only [keyRegister, Fin.getElem_fin, Vector.getElem_ofFn]
  split
  · exact getD_pack operand i.val (by omega)
  · rfl

/-- Settles O21: the lengths agree, and the key register is the operand word by word. -/
theorem loadKeyCompletes : Obligations.LoadKeyCompletes := by
  intro s kl operand hkl hlen
  obtain ⟨nk, hnk, hwords, hcode⟩ := exists_keyLengthOf hkl
  refine ⟨_, exec_loadKey hnk hlen, rfl, hwords, hcode, fun i => ?_⟩
  rw [← hwords]
  exact getElem_keyRegister (by omega) i

/-- Settles O38: the invariant gives the expansion of `KEY`, and the rest of `INIT` leaves it. -/
theorem initLeavesTheScheduleOfTheKey : Obligations.InitLeavesTheScheduleOfTheKey := by
  intro s dir ivp h hk
  exact ⟨_, exec_init rfl hk, (h.expandIfNeeded_isExpansion hk).congr rfl rfl rfl, expandIfNeeded_key s,
    expandIfNeeded_keyNk s⟩

/-- Settles O27: the two commands run with a schedule, and packing 16 bytes gives their four words. -/
theorem rawBlockCommandsComplete : Obligations.RawBlockCommandsComplete := by
  intro s b0 b1 b2 b3 b4 b5 b6 b7 b8 b9 b10 b11 b12 b13 b14 b15 hv operand b
  exact ⟨⟨_, exec_encBlock rfl hv, rfl⟩, ⟨_, exec_decBlock rfl hv, rfl⟩⟩

end Sys2Proof.Machine
end

section
/-! Processing a stream in two parts (spec/42_buffered.md R150; spec/43_cbc.md R185): the first blocks of a string and
the rest, the run of the hook over both, and the state and the output they leave. -/

namespace Sys2Proof.Machine

/-- Bytes after the first `n` blocks are none of them. -/
theorem blocksOf_append {d : Bytes} {n : Nat} (h : 16 * n ≤ d.length) (x : Bytes) :
    blocksOf (d ++ x) n = blocksOf d n := by
  induction n generalizing d with
  | zero => rfl
  | succ n ih =>
    rw [blocksOf_succ, blocksOf_succ, List.take_append_of_le_length (by omega),
      List.drop_append_of_le_length (by omega), ih (by rw [List.length_drop]; omega)]

/-- The first `n` blocks and the `m` blocks after them. -/
theorem blocksOf_add (d : Bytes) (n m : Nat) :
    blocksOf d (n + m) = blocksOf d n ++ blocksOf (d.drop (16 * n)) m := by
  induction n generalizing d with
  | zero =>
    rw [Nat.zero_add]
    rfl
  | succ n ih =>
    rw [Nat.add_right_comm, blocksOf_succ, blocksOf_succ, ih, List.drop_drop, List.cons_append, Nat.mul_succ,
      Nat.add_comm 16]

@[simp] theorem blockBytes_append (bs cs : List Block) : blockBytes (bs ++ cs) = blockBytes bs ++ blockBytes cs :=
  List.flatMap_append

/-- The chaining value a run of blocks leaves. -/
def runChain (s : State) (c : Block) (bs : List Block) : Block := lastCiphertext s.dir c bs (cbcRun s c bs)

@[simp] theorem runChain_nil (s : State) (c : Block) : runChain s c [] = c := by
  cases h : s.dir <;> simp [runChain, lastCiphertext, cbcRun, h]

theorem runChain_cons (s : State) (c b : Block) (bs : List Block) :
    runChain s c (b :: bs) = runChain s (cbcNext s b (cbcOut s c b)) bs := lastCiphertext_cons ..

theorem runChain_append (s : State) (c : Block) (bs cs : List Block) :
    runChain s c (bs ++ cs) = runChain s (runChain s c bs) cs := by
  induction bs generalizing c with
  | nil => simp
  | cons b bs ih => rw [List.cons_append, runChain_cons, ih, runChain_cons]

/-- A run is continued from the chaining value its first part leaves. -/
theorem cbcRun_append (s : State) (c : Block) (bs cs : List Block) :
    cbcRun s c (bs ++ cs) = cbcRun s c bs ++ cbcRun s (runChain s c bs) cs := by
  induction bs generalizing c with
  | nil => simp [cbcRun]
  | cons b bs ih => simp only [List.cons_append, cbcRun, ih, runChain_cons]

/-- The state an `UPDATE` leaves that has processed `n` blocks of the accumulated bytes `d` (R153). -/
def updated (s : State) (d : Bytes) (n : Nat) : State :=
  complete (outOfBlocks s d n) false { afterBlocks s d n with state := .accum }

section
variable (s : State) {d : Bytes} {n : Nat} (h : 16 * n ≤ d.length) (x : Bytes) (m : Nat)

theorem cbcRun_updated (d : Bytes) (n : Nat) (c : Block) (bs : List Block) :
    cbcRun (updated s d n) c bs = cbcRun s c bs :=
  cbcRun_congr (s := s) (t := updated s d n) rfl rfl rfl rfl c bs

include h

/-- The first `n` blocks of `d`, and the blocks of the bytes left and `x`. -/
theorem blocksOf_split : blocksOf (d ++ x) (n + m) = blocksOf d n ++ blocksOf (d.drop (16 * n) ++ x) m := by
  rw [blocksOf_add, blocksOf_append h, List.drop_append_of_le_length h]

/-- What is processed after an `UPDATE` continues its output. -/
theorem outOfBlocks_updated :
    outOfBlocks s d n ++ outOfBlocks (updated s d n) (d.drop (16 * n) ++ x) m = outOfBlocks s (d ++ x) (n + m) := by
  simp only [outOfBlocks, cbcRun_updated, blocksOf_split h, cbcRun_append, blockBytes_append]
  rfl

/-- What is processed after an `UPDATE` leaves the bytes and the chaining value of one run over all blocks. -/
theorem afterBlocks_updated : afterBlocks (updated s d n) (d.drop (16 * n) ++ x) m =
    { updated s d n with data := (afterBlocks s (d ++ x) (n + m)).data
                         chain := (afterBlocks s (d ++ x) (n + m)).chain } := by
  have hdata : (d.drop (16 * n) ++ x).drop (16 * m) = (afterBlocks s (d ++ x) (n + m)).data := by
    rw [afterBlocks_data, ← List.drop_append_of_le_length h, List.drop_drop, Nat.mul_add]
  have hchain : (afterBlocks (updated s d n) (d.drop (16 * n) ++ x) m).chain =
      (afterBlocks s (d ++ x) (n + m)).chain := by
    rw [afterBlocks_chain, cbcRun_updated]
    exact (runChain_append s s.chain _ _).symm.trans (congrArg _ (blocksOf_split h x m)).symm
  rw [← hdata, ← hchain]
  rfl

end

end Sys2Proof.Machine
end

section
/-! The commands of the buffered accumulator (spec/42_buffered.md R152 to R155): the state each one completes in. -/

namespace Sys2Proof.Machine

/-- Settles O20: without an operand `STATUS` only answers. -/
theorem statusCompletes : Obligations.StatusCompletes := fun _ => exec_status rfl

/-- With a clean schedule, the two elements that say so are set as an expansion sets them (R128). -/
theorem expandIfNeeded_of_clean_eq {s : State} (hv : s.ksValid = true) (hd : s.keyDirty = false) :
    expandIfNeeded s = { s with ksValid := true, keyDirty := false } := by
  rw [expandIfNeeded_of_clean hv hd, ← hv, ← hd]

/-- Settles O23: the state of `INIT` with the cache filled or kept, and the register files of an expansion word by
word. -/
theorem initCompletes : Obligations.InitCompletes := by
  intro s dir ivp hk
  refine ⟨_, exec_init rfl hk, ?_, fun hn => ?_, fun hv hd => ?_⟩
  · by_cases hn : s.ksValid = false ∨ s.keyDirty = true
    · rw [expandIfNeeded_of_needed hn]
      rfl
    · obtain ⟨hv, hd⟩ := not_or.mp hn
      rw [expandIfNeeded_of_clean_eq (by simpa using hv) (by simpa using hd)]
      rfl
  · have he := expandIfNeeded_isExpansion hk hn
    refine ⟨he.words, ?_, he.congr rfl rfl rfl, fun i => ⟨he.forward.2 i, he.inverse.2 i⟩⟩
    rw [← KeyLength.rounds_count hk, ← he.rounds]
    rfl
  · simp [expandIfNeeded_of_clean hv hd]

/-- R31: `MINBUF` is 0 encrypting and 1 decrypting. -/
theorem minBuf_eq (dir : Direction) : minBuf dir = if dir = .enc then 0 else 1 := by cases dir <;> rfl

/-- Settles O24: the blocks are those of R150, and a run obeys the chaining equations. -/
theorem updateCompletes : Obligations.UpdateCompletes := by
  intro s operand hs d n
  have hn : blocksToProcess false s.dir d.length = n := congrArg (d.length / 16 - ·) (minBuf_eq s.dir)
  have he := exec_update (operand := operand) hs
  rw [hn] at he
  exact ⟨_, _, he, cbcRun_equations s s.chain (blocksOf d n), rfl⟩

/-- A flushing `Process` of whole blocks empties `DATA`. -/
theorem afterBlocks_all (s : State) {d : Bytes} (h : d.length % 16 = 0) : afterBlocks s d (d.length / 16) =
    { s with data := [], chain := (afterBlocks s d (d.length / 16)).chain } := by
  rw [afterBlocks, drop_all_blocks h]

/-- R195: a padded string has one block more than the whole blocks of the string. -/
theorem pad_length_div (x : Bytes) : (pad x).length / 16 = x.length / 16 + 1 := by
  simp only [pad, padCount, List.length_append, List.length_replicate]
  omega

/-- Settles O25: the padded bytes are whole blocks, and encrypting the last ciphertext block is the last output. -/
theorem finalEncryptCompletes : Obligations.FinalEncryptCompletes := by
  intro s operand hs hd d k padded n
  have hchain : (afterBlocks s padded n).chain = (cbcRun s s.chain (blocksOf padded n)).getLastD s.chain := by
    rw [afterBlocks_chain, hd, lastCiphertext]
  have he := exec_final_enc (operand := operand) hs hd
  rw [afterBlocks_all s (pad_length_mod _), pad_length_div] at he
  refine ⟨_, _, he, cbcRun_equations s s.chain (blocksOf padded n), ?_⟩
  rw [← hchain]
  rfl

/-- R196, R199: the value of the last byte, 0 where there is none. -/
theorem unpadCount_eq_lastByte (y : Bytes) : unpadCount y = (y.getLastD 0).toNat := by
  rw [unpadCount, List.getLastD_eq_getLast?, List.getLast?_eq_getElem?, ← List.getD_eq_getElem?_getD]
  split
  · rw [List.getD_eq_default _ _ (by omega)]
    rfl
  · rfl

/-- R196, R198: the output and the underflow bit by the value of the last byte. -/
theorem unpad_eq_lastByte (y : Bytes) : unpad y =
    (if y.length < (y.getLastD 0).toNat then [] else y.take (y.length - (y.getLastD 0).toNat),
      decide (y.length < (y.getLastD 0).toNat)) := by
  rw [unpad, unpadCount_eq_lastByte]
  by_cases h : y.length < (y.getLastD 0).toNat
  · rw [if_pos h, if_pos h, decide_eq_true h]
  · rw [if_neg h, if_neg h, decide_eq_false h]

/-- Settles O26: decrypting, the last ciphertext block is the last input, and the output is unpadded. -/
theorem finalDecryptCompletes : Obligations.FinalDecryptCompletes := by
  intro s operand hs hd hl d n
  have hchain : (afterBlocks s d n).chain = (blocksOf d n).getLastD s.chain := by
    rw [afterBlocks_chain, hd, lastCiphertext]
  have he := exec_final_dec hs hd hl
  rw [afterBlocks_all s (by rwa [List.length_append]), unpad_eq_lastByte] at he
  refine ⟨_, _, he, cbcRun_equations s s.chain (blocksOf d n), ?_⟩
  rw [← hchain]
  rfl

end Sys2Proof.Machine
end

section
/-! Split invariance (spec/42_buffered.md R151, R156, R157): the bytes an `UPDATE` holds back, the blocks two commands
process between them, and the output of a `FINAL` after an `UPDATE`. -/

namespace Sys2Proof.Machine

variable {s : State}

/-- The blocks an `UPDATE` processes (R150). -/
def updateBlocks (s : State) (a : Bytes) : Nat := blocksToProcess false s.dir (s.data ++ a).length

theorem updateBlocks_le (s : State) (a : Bytes) : 16 * updateBlocks s a ≤ (s.data ++ a).length := by
  have : blocksToProcess false s.dir (s.data ++ a).length ≤ (s.data ++ a).length / 16 := Nat.sub_le _ _
  unfold updateBlocks
  omega

/-- The state of an `UPDATE` (R153). -/
def afterUpdate (s : State) (a : Bytes) : State := updated s (s.data ++ a) (updateBlocks s a)

/-- The output of an `UPDATE` (R153). -/
def updateOut (s : State) (a : Bytes) : Bytes := outOfBlocks s (s.data ++ a) (updateBlocks s a)

theorem exec_update_eq (hs : streaming s) (a : Bytes) : exec (.update a) s = .next (afterUpdate s a) := exec_update hs

theorem afterUpdate_data (s : State) (a : Bytes) :
    (afterUpdate s a).data = (s.data ++ a).drop (16 * updateBlocks s a) := rfl

theorem afterUpdate_answers (s : State) (a : Bytes) : Answers (updateOut s a) s (afterUpdate s a) := rfl

theorem streaming_afterUpdate (s : State) (a : Bytes) : streaming (afterUpdate s a) := .inr rfl

/-- The bytes held back and the bytes processed are the accumulated bytes. -/
theorem afterUpdate_data_length (s : State) (a : Bytes) :
    (afterUpdate s a).data.length + 16 * updateBlocks s a = s.data.length + a.length := by
  have := updateBlocks_le s a
  rw [List.length_append] at this
  rw [afterUpdate_data, List.length_drop, List.length_append]
  omega

theorem updateBlocks_eq (s : State) (a : Bytes) :
    updateBlocks s a = (s.data.length + a.length) / 16 - minBuf s.dir := by
  rw [← List.length_append]
  rfl

/-- Settles O47: what is left is the tail after the processed blocks, and its length follows from their number. -/
theorem updateHoldsBackTheLastBlock : Obligations.UpdateHoldsBackTheLastBlock := by
  intro s a hs
  have hlen := afterUpdate_data_length s a
  have hn := updateBlocks_eq s a
  simp only [List.length_append]
  refine ⟨_, exec_update_eq hs a, ?_, fun hd => ?_, fun hd _ => ?_, fun hd _ => ?_⟩
  · rw [← hlen, Nat.add_sub_cancel_left, afterUpdate_data]
  · simp only [hd, minBuf] at hn
    omega
  · simp only [hd, minBuf] at hn
    omega
  · simp only [hd, minBuf] at hn
    have h0 : updateBlocks s a = 0 := by omega
    rw [afterUpdate_data, h0, Nat.mul_zero, List.drop_zero]

/-- The blocks of two `UPDATE`s are those of one. -/
theorem updateBlocks_append (s : State) (a b : Bytes) :
    updateBlocks s a + updateBlocks (afterUpdate s a) b = updateBlocks s (a ++ b) := by
  have hlen := afterUpdate_data_length s a
  have ha := updateBlocks_eq s a
  have hdir : minBuf (afterUpdate s a).dir = minBuf s.dir := rfl
  rw [updateBlocks_eq (afterUpdate s a), updateBlocks_eq s (a ++ b), hdir, List.length_append]
  omega

/-- The output of `m` blocks after an `UPDATE`, with the bytes `x` added, continues its own. -/
theorem updateOut_append (s : State) (a x : Bytes) (m : Nat) :
    updateOut s a ++ outOfBlocks (afterUpdate s a) ((afterUpdate s a).data ++ x) m =
      outOfBlocks s (s.data ++ (a ++ x)) (updateBlocks s a + m) := by
  rw [← List.append_assoc]
  exact outOfBlocks_updated s (updateBlocks_le s a) x m

/-- The state those blocks leave has the bytes and the chaining value of one run over all of them. -/
theorem afterBlocks_afterUpdate (s : State) (a x : Bytes) (m : Nat) :
    afterBlocks (afterUpdate s a) ((afterUpdate s a).data ++ x) m =
      { afterUpdate s a with data := (afterBlocks s (s.data ++ (a ++ x)) (updateBlocks s a + m)).data
                             chain := (afterBlocks s (s.data ++ (a ++ x)) (updateBlocks s a + m)).chain } := by
  rw [← List.append_assoc]
  exact afterBlocks_updated s (updateBlocks_le s a) x m

/-- Settles O48: the second `UPDATE` processes what is left of the blocks of the one. -/
theorem updatesCanBeSplit : Obligations.UpdatesCanBeSplit := by
  intro s a b hs
  have hout : updateOut s a ++ updateOut (afterUpdate s a) b = updateOut s (a ++ b) := by
    rw [updateOut, updateOut, updateOut, ← updateBlocks_append]
    exact updateOut_append s a b _
  refine ⟨_, _, _, _, _, exec_update_eq hs a, exec_update_eq (streaming_afterUpdate s a) b,
    exec_update_eq hs (a ++ b), afterUpdate_answers s a, afterUpdate_answers _ b, ?_, ?_⟩
  · rw [hout]
    exact afterUpdate_answers s (a ++ b)
  · rw [afterUpdate, updated, afterBlocks_afterUpdate, updateBlocks_append]
    rfl

/-- The bytes that all whole blocks of `d` become. -/
def allOut (s : State) (d : Bytes) : Bytes := outOfBlocks s d (d.length / 16)

/-- The state a `FINAL` leaves that has processed the whole blocks of `d` (R154). -/
def finished (s : State) (d out : Bytes) (u : Bool) : State :=
  complete out u { afterBlocks s d (d.length / 16) with state := .final }

theorem exec_final_enc_eq (hs : streaming s) (hd : s.dir = .enc) (b : Bytes) : exec (.final b) s =
    .next (finished s (pad (s.data ++ b)) (allOut s (pad (s.data ++ b))) false) := exec_final_enc hs hd

theorem exec_final_dec_eq (hs : streaming s) (hd : s.dir = .dec) {b : Bytes}
    (hl : (s.data.length + b.length) % 16 = 0) : exec (.final b) s =
    .next (finished s (s.data ++ b) (unpad (allOut s (s.data ++ b))).1 (unpad (allOut s (s.data ++ b))).2) :=
  exec_final_dec hs hd hl

theorem finished_answers (s : State) (d out : Bytes) (u : Bool) : Answers out s (finished s d out u) := rfl

@[simp] theorem allOut_length (s : State) (d : Bytes) : (allOut s d).length = 16 * (d.length / 16) := by
  simp [allOut, outOfBlocks]

/-- All blocks of a stream are those of an `UPDATE` and those of the bytes it holds back and of the rest. -/
theorem allBlocks_append (s : State) (a x : Bytes) :
    updateBlocks s a + ((afterUpdate s a).data ++ x).length / 16 = (s.data ++ (a ++ x)).length / 16 := by
  have := afterUpdate_data_length s a
  simp only [List.length_append]
  omega

theorem allOut_append (s : State) (a x : Bytes) :
    updateOut s a ++ allOut (afterUpdate s a) ((afterUpdate s a).data ++ x) = allOut s (s.data ++ (a ++ x)) := by
  rw [allOut, updateOut_append, allBlocks_append, allOut]

/-- A `FINAL` after an `UPDATE` and one `FINAL` of all bytes differ in the responses alone. -/
theorem finished_afterUpdate (s : State) (a x out out' : Bytes) (u : Bool) :
    finished (afterUpdate s a) ((afterUpdate s a).data ++ x) out u =
      { finished s (s.data ++ (a ++ x)) out' u with
        responses := (finished (afterUpdate s a) ((afterUpdate s a).data ++ x) out u).responses } := by
  rw [finished, afterBlocks_afterUpdate, allBlocks_append]
  rfl

/-- R195: the bytes `Pad` appends depend on the length modulo 16, which dropping whole blocks keeps. -/
theorem pad_afterUpdate (s : State) (a b : Bytes) : ∃ x,
    pad ((afterUpdate s a).data ++ b) = (afterUpdate s a).data ++ (b ++ x) ∧
      pad (s.data ++ (a ++ b)) = s.data ++ (a ++ (b ++ x)) := by
  have hlen := afterUpdate_data_length s a
  have hcount : padCount ((afterUpdate s a).data ++ b).length = padCount (s.data ++ (a ++ b)).length := by
    simp only [padCount, List.length_append]
    omega
  refine ⟨_, List.append_assoc .., ?_⟩
  rw [hcount, pad]
  simp only [List.append_assoc]

/-- Decrypting, an `UPDATE` that has processed a block holds back another one for the `FINAL` (R151). -/
theorem updateOut_eq_nil (hd : s.dir = .dec) {a x : Bytes}
    (h : allOut (afterUpdate s a) ((afterUpdate s a).data ++ x) = []) : updateOut s a = [] := by
  have hlen := afterUpdate_data_length s a
  have hn := updateBlocks_eq s a
  simp only [hd, minBuf] at hn
  rw [← List.length_eq_zero_iff, allOut_length, List.length_append] at h
  have h0 : updateBlocks s a = 0 := by omega
  rw [updateOut, h0]
  rfl

/-- R196: where the unpad of the last part does not underflow, it is that of the whole. -/
theorem unpad_append {x y : Bytes} (hy : y = [] → x = []) (hu : (unpad y).2 = false) :
    unpad (x ++ y) = (x ++ (unpad y).1, false) := by
  by_cases h0 : y = []
  · rw [h0, hy h0]
    rfl
  · have hlast : (x ++ y).getLastD 0 = y.getLastD 0 := by
      rw [List.getLastD_eq_getLast?, List.getLast?_append_of_ne_nil x h0, ← List.getLastD_eq_getLast?]
    rw [unpad_eq_lastByte, decide_eq_false_iff_not, Nat.not_lt] at hu
    rw [unpad_eq_lastByte, unpad_eq_lastByte, hlast, List.length_append, if_neg (by omega),
      if_neg (by omega), Nat.add_sub_assoc hu, List.take_length_add_append, decide_eq_false (by omega)]

/-- Settles O49: encrypting, the padding is the same; decrypting, the unpad that does not underflow takes bytes of the
last output only. -/
theorem finalCanBeSplit : Obligations.FinalCanBeSplit := by
  intro s a b hs hl
  cases hd : s.dir with
  | enc =>
    obtain ⟨x, hx2, hx⟩ := pad_afterUpdate s a b
    have h2 := exec_final_enc_eq (streaming_afterUpdate s a) hd b
    have h := exec_final_enc_eq hs hd (a ++ b)
    rw [hx2] at h2
    rw [hx] at h
    exact ⟨_, _, _, _, _, _, exec_update_eq hs a, h2, h, afterUpdate_answers s a, finished_answers ..,
      finished_answers .., fun _ => ⟨(allOut_append s a (b ++ x)).symm, finished_afterUpdate ..⟩⟩
  | dec =>
    have hl : (s.data.length + (a ++ b).length) % 16 = 0 := hl.resolve_left (by simp [hd])
    have hl2 : ((afterUpdate s a).data.length + b.length) % 16 = 0 := by
      have := afterUpdate_data_length s a
      rw [List.length_append] at hl
      omega
    refine ⟨_, _, _, _, _, _, exec_update_eq hs a, exec_final_dec_eq (streaming_afterUpdate s a) hd hl2,
      exec_final_dec_eq hs hd hl, afterUpdate_answers s a, finished_answers .., finished_answers .., fun hu => ?_⟩
    have hu2 : (unpad (allOut (afterUpdate s a) ((afterUpdate s a).data ++ b))).2 = false := hu
    rw [← allOut_append, unpad_append (updateOut_eq_nil hd) hu2, hu2]
    exact ⟨rfl, finished_afterUpdate ..⟩

/-- A state answers with one output. -/
theorem Answers.out_eq {t : State} {out out' : Bytes} (h : Answers out s t) (h' : Answers out' s t) : out = out' := by
  simpa using h.symm.trans h'

/-- The decrypting state that `LOAD_KEY` of a zero key and `INIT` with `IVP = 0` lead to from reset. -/
def zeroKeyDecrypting : State :=
  let s := complete [] false
    { State.reset with key := keyRegister 4 (List.replicate 16 0), keyNk := .k128, keyDirty := true }
  complete [] false
    { expandIfNeeded s with dir := .dec, chain := initialChain false s, data := [], state := .idle }

/-- The two commands, from reset. -/
theorem zeroKeyDecrypting_reached : ∃ s, exec (.loadKey 0 (List.replicate 16 0)) State.reset = .next s ∧
    exec (.init .dec false []) s = .next zeroKeyDecrypting :=
  ⟨_, exec_loadKey rfl rfl, exec_init rfl (by decide)⟩

/-- Four zero blocks. -/
def zeroStream : Bytes := List.replicate 64 0

/-- Their last block becomes one that ends in the byte 58, more than the 16 bytes of the block and less than the 64 of
the stream. -/
theorem zeroStream_outputs :
    (updateOut zeroKeyDecrypting zeroStream).length = 48 ∧
      unpad (allOut (afterUpdate zeroKeyDecrypting zeroStream)
        ((afterUpdate zeroKeyDecrypting zeroStream).data ++ [])) = ([], true) ∧
      (unpad (allOut zeroKeyDecrypting (zeroKeyDecrypting.data ++ (zeroStream ++ [])))).1.length = 6 := by
  decide +kernel

/-- Refutes O50: an `UPDATE` of the four zero blocks emits three of them and the empty `FINAL` underflows, while one
`FINAL` unpads all four to 6 bytes. -/
theorem not_finalCanBeSplitDespiteUnderflow : ¬ Obligations.FinalCanBeSplitDespiteUnderflow := by
  intro hsplit
  obtain ⟨t1, t2, t, out1, out2, h1, h2, h, ha1, ha2, ha⟩ :=
    hsplit zeroKeyDecrypting zeroStream [] (.inl rfl) (.inr rfl)
  have hs : streaming zeroKeyDecrypting := .inl rfl
  rw [exec_update_eq hs] at h1
  cases h1
  rw [exec_final_dec_eq (streaming_afterUpdate _ _) rfl (by decide +kernel)] at h2
  cases h2
  rw [exec_final_dec_eq hs rfl rfl] at h
  cases h
  obtain ⟨hlen1, hout2, hlen⟩ := zeroStream_outputs
  rw [hout2] at ha2
  rw [← ha.out_eq (finished_answers ..), ha1.out_eq (afterUpdate_answers ..), ha2.out_eq (finished_answers ..),
    List.append_nil, hlen1] at hlen
  exact absurd hlen (by decide)

end Sys2Proof.Machine
end

section
/-! `LOAD_IV` and one message through both directions (spec/43_cbc.md R183 to R185; spec/44_pkcs7.md R202): the bytes of
a stream and its blocks, the padding taken off again, and the decryption of a run of blocks. -/

namespace Sys2Proof.Machine

/-- Settles O22: 16 operand bytes pass the length check and pack to the four words. -/
theorem loadIvCompletes : Obligations.LoadIvCompletes := by
  intro s b0 b1 b2 b3 b4 b5 b6 b7 b8 b9 b10 b11 b12 b13 b14 b15
  exact ⟨_, exec_loadIv rfl, rfl⟩

/-! ### Bytes and blocks (R51, R52) -/

@[simp] theorem packBlock_unpackBlock (b : Block) : packBlock (unpackBlock b) = b := by
  simp [packBlock, unpackBlock, blockOfWords, blockWords]

theorem blockWords_blockOfWords {ws : List Word} (h : ws.length = 4) : blockWords (blockOfWords ws) = ws := by
  match ws, h with
  | [_, _, _, _], _ => rfl

theorem unpackBlock_packBlock {x : Bytes} (h : x.length = 16) : unpackBlock (packBlock x) = x := by
  rw [unpackBlock, packBlock, blockWords_blockOfWords (by simp [h]), unpack_pack (by omega)]

/-- The blocks of the bytes of blocks. -/
theorem blocksOf_blockBytes (bs : List Block) : blocksOf (blockBytes bs) bs.length = bs := by
  induction bs with
  | nil => rfl
  | cons b bs ih =>
    rw [List.length_cons, blocksOf_succ, blockBytes_cons, List.take_left' (unpackBlock_length b),
      List.drop_left' (unpackBlock_length b), packBlock_unpackBlock, ih]

/-- The bytes of the blocks of whole blocks of bytes. -/
theorem blockBytes_blocksOf {d : Bytes} {n : Nat} (h : d.length = 16 * n) : blockBytes (blocksOf d n) = d := by
  induction n generalizing d with
  | zero => exact (List.length_eq_zero_iff.mp h).symm
  | succ n ih =>
    rw [blocksOf_succ, blockBytes_cons, unpackBlock_packBlock (by rw [List.length_take]; omega),
      ih (by rw [List.length_drop]; omega), List.take_append_drop]

/-! ### Padding (R195, R202) -/

/-- R195: the last byte of a padded string is the number of bytes appended. -/
theorem pad_lastByte (x : Bytes) : ((pad x).getLastD 0).toNat = padCount x.length := by
  have hcount : padCount x.length ≠ 0 ∧ padCount x.length < 2 ^ 8 := by
    unfold padCount
    omega
  have hlast : (pad x).getLast? = some (BitVec.ofNat 8 (padCount x.length)) := by
    simp [pad, List.getLast?_append, List.getLast?_replicate, hcount.1]
  rw [List.getLastD_eq_getLast?, hlast, Option.getD_some, BitVec.toNat_ofNat, Nat.mod_eq_of_lt hcount.2]

/-- R202: `Unpad` takes off what `Pad` appends. -/
theorem unpad_pad (x : Bytes) : unpad (pad x) = (x, false) := by
  have hlen : (pad x).length = x.length + padCount x.length := by simp [pad]
  rw [unpad_eq_lastByte, pad_lastByte, hlen, if_neg (by omega), decide_eq_false (by omega), Nat.add_sub_cancel, pad,
    List.take_left]

/-! ### The run of the hook in both directions (R181, R182, R185) -/

/-- The blocks of the output of a stream are those of its run. -/
theorem blocksOf_allOut (s : State) (d : Bytes) : blocksOf (allOut s d) ((allOut s d).length / 16) =
    cbcRun s s.chain (blocksOf d (d.length / 16)) := by
  have hcount : (allOut s d).length / 16 = (cbcRun s s.chain (blocksOf d (d.length / 16))).length := by simp
  rw [hcount]
  exact blocksOf_blockBytes _

section
variable {s t : State} (hs : s.dir = .enc) (ht : t.dir = .dec)
  (hinv : ∀ b, decryptBlock t.iks t.nr.count (encryptBlock s.ks s.nr.count b) = b)
include hs ht hinv

/-- R185: each plaintext block is decrypted and meets the ciphertext block it was encrypted with. -/
theorem cbcRun_dec_cbcRun_enc (c : Block) (bs : List Block) : cbcRun t c (cbcRun s c bs) = bs := by
  induction bs generalizing c with
  | nil => rfl
  | cons b bs ih =>
    have hblock : cbcOut t c (cbcOut s c b) = b := by simp [cbcOut, hs, ht, hinv]
    have hnext : cbcNext t (cbcOut s c b) b = cbcNext s b (cbcOut s c b) := by simp [cbcNext, hs, ht]
    rw [cbcRun, cbcRun, hblock, hnext, ih]

variable (hc : t.chain = s.chain) {d : Bytes}
include hc

/-- The bytes of whole blocks come back from the bytes they are encrypted to. -/
theorem allOut_dec_allOut_enc (hd : d.length % 16 = 0) : allOut t (allOut s d) = d := by
  rw [allOut, outOfBlocks, blocksOf_allOut, hc, cbcRun_dec_cbcRun_enc hs ht hinv, blockBytes_blocksOf (by omega)]

omit hinv in
/-- R185: `CHAIN` ends as the last ciphertext block in both directions. -/
theorem finished_dec_chain (out out' : Bytes) (u u' : Bool) :
    (finished t (allOut s d) out u).chain = (finished s d out' u').chain := by
  simp only [finished, complete_chain, afterBlocks_chain, blocksOf_allOut, hc, hs, ht, lastCiphertext]

end

/-! ### One operation after another (R152, R183) -/

section
variable (s : State) (dir : Direction) (ivp : Bool) (d out : Bytes) (u : Bool)

/-- The state of `INIT` (R152). -/
def initialised : State :=
  complete [] false
    { expandIfNeeded s with dir := dir, chain := initialChain ivp s, data := [], state := .idle }

variable {s} in
theorem exec_init_eq (hk : s.keyNk ≠ .none) : exec (.init dir ivp []) s = .next (initialised s dir ivp) :=
  exec_init rfl hk

variable {s} in
/-- R128: `INIT` leaves the expansion of `KEY`. -/
theorem State.Inv.initialised_isExpansion (h : s.Inv) (hk : s.keyNk ≠ .none) :
    IsExpansion (initialised s dir ivp) (loadedKey s) s.keyNk :=
  (h.expandIfNeeded_isExpansion hk).congr rfl rfl rfl

/-- The state at the end of an operation that is one `FINAL` (R154). -/
abbrev operated : State := finished (initialised s dir ivp) d out u

theorem operated_keyNk : (operated s dir ivp d out u).keyNk = s.keyNk := expandIfNeeded_keyNk s

/-- R128: an operation leaves a clean schedule, which the next `INIT` keeps. -/
theorem expandIfNeeded_operated : expandIfNeeded (operated s dir ivp d out u) = operated s dir ivp d out u :=
  expandIfNeeded_of_clean (expandIfNeeded_ksValid s) (expandIfNeeded_keyDirty s)

/-- R183: no operation writes `IV`, so the next one with the same `IVP` starts from the same chaining value. -/
theorem initialChain_operated : initialChain ivp (operated s dir ivp d out u) = initialChain ivp s := by
  have hiv : (operated s dir ivp d out u).iv = s.iv := expandIfNeeded_iv s
  rw [initialChain, hiv, initialChain]

end

/-- The decrypting operation that follows an encrypting one deciphers its blocks: both run the schedule of `KEY`. -/
theorem decryptBlock_after_operated {s : State} (h : s.Inv) (hk : s.keyNk ≠ .none) (ivp : Bool) (d out : Bytes)
    (b : Block) :
    let t := initialised (operated s .enc ivp d out false) .dec ivp
    decryptBlock t.iks t.nr.count
      (encryptBlock (initialised s .enc ivp).ks (initialised s .enc ivp).nr.count b) = b := by
  change decryptBlock (expandIfNeeded (operated s .enc ivp d out false)).iks
    (expandIfNeeded (operated s .enc ivp d out false)).nr.count _ = b
  rw [expandIfNeeded_operated]
  exact (blockTransformsAreInverse.1 _ _ _ (h.initialised_isExpansion .enc ivp hk) b).1

/-- Settles O51: the second operation takes the blocks of the first back to the padded message, and the unpad takes off
the padding. -/
theorem decryptionReturnsTheMessage : Obligations.DecryptionReturnsTheMessage := by
  intro s ivp message h hk
  let t1 := initialised s .enc ivp
  let cipher := allOut t1 (pad message)
  let t2 := operated s .enc ivp (pad message) cipher false
  let t3 := initialised t2 .dec ivp
  have hc : t3.chain = t1.chain := initialChain_operated ..
  have hplain : allOut t3 cipher = pad message := allOut_dec_allOut_enc rfl rfl
    (decryptBlock_after_operated h hk ivp (pad message) cipher) hc (pad_length_mod message)
  have hfinal : exec (.final cipher) t3 = .next (finished t3 cipher message false) := by
    have hdata : t3.data = [] := rfl
    have hwhole : (t3.data.length + cipher.length) % 16 = 0 := by simp [hdata, cipher]
    rw [exec_final_dec_eq (.inl rfl) rfl hwhole, hdata, List.nil_append, hplain, unpad_pad]
  refine ⟨t1, t2, t3, finished t3 cipher message false, cipher, exec_init_eq _ _ hk,
    exec_final_enc_eq (.inl rfl) rfl message, finished_answers .., ?_,
    exec_init_eq _ _ (by rwa [operated_keyNk]), hfinal, finished_answers .., rfl, rfl,
    finished_dec_chain rfl rfl hc ..⟩
  rw [allOut_length, pad_length_div]

end Sys2Proof.Machine
end

section
/-! Divergence of two encryptions (spec/43_cbc.md R185, R186): each ciphertext block is an injective function of the
plaintext block and the chaining value. -/

namespace Sys2Proof.Machine

/-! ### Injectivity -/

theorem IsExpansion.encryptBlock_injective {s : State} {key : List Word} {nk : KeyLength}
    (h : IsExpansion s key nk) : Function.Injective (encryptBlock s.ks s.nr.count) :=
  Function.LeftInverse.injective fun b => (blockTransformsAreInverse.1 s key nk h b).1

theorem Block.xor_comm (a b : Block) : Block.xor a b = Block.xor b a := by
  simp only [Block.xor, BitVec.xor_comm]

@[simp] theorem Block.xor_left_inj {a b c : Block} : Block.xor a c = Block.xor b c ↔ a = b :=
  Function.Injective.eq_iff (f := (Block.xor · c)) <|
    Function.LeftInverse.injective (g := (Block.xor · c)) fun a => xor_xor_cancel_right a c

@[simp] theorem Block.xor_right_inj {a b c : Block} : Block.xor a b = Block.xor a c ↔ b = c := by
  rw [Block.xor_comm a, Block.xor_comm a, Block.xor_left_inj]

/-! ### Two streams (R186) -/

/-- The chaining value that block `k` of an encryption meets: the ciphertext block before it (R185). -/
def chainAt (c0 : Block) (outs : List Block) (k : Nat) : Block :=
  if k = 0 then c0 else outs.getD (k - 1) Block.zero

@[simp] theorem chainAt_zero (c0 : Block) (outs : List Block) : chainAt c0 outs 0 = c0 := rfl

@[simp] theorem chainAt_succ (c0 : Block) (outs : List Block) (k : Nat) :
    chainAt c0 outs (k + 1) = outs.getD k Block.zero := rfl

theorem CbcEquations.getD_of_enc {s : State} {c0 : Block} {ins outs : List Block} (h : CbcEquations s c0 ins outs)
    (hd : s.dir = .enc) {k : Nat} (hk : k < ins.length) : outs.getD k Block.zero =
      encryptBlock s.ks s.nr.count (Block.xor (ins.getD k Block.zero) (chainAt c0 outs k)) := by
  simpa only [hd, chainAt] using h.2 k hk

section
variable {s : State} {key : List Word} {nk : KeyLength} (he : IsExpansion s key nk) (hd : s.dir = .enc)
  {c0 : Block} {ins ins' outs outs' : List Block} (hlen : ins.length = ins'.length)
  (h : CbcEquations s c0 ins outs) (h' : CbcEquations s c0 ins' outs')
include he hd hlen h h'

/-- Two ciphertext blocks are equal just where the inputs of the block transform are. -/
theorem outs_eq_iff {k : Nat} (hk : k < ins.length) : outs.getD k Block.zero = outs'.getD k Block.zero ↔
    Block.xor (ins.getD k Block.zero) (chainAt c0 outs k) =
      Block.xor (ins'.getD k Block.zero) (chainAt c0 outs' k) := by
  rw [h.getD_of_enc hd hk, h'.getD_of_enc hd (hlen ▸ hk), he.encryptBlock_injective.eq_iff]

variable {k : Nat} (hk : k < ins.length)
  (hbefore : ∀ j, j < k → ins.getD j Block.zero = ins'.getD j Block.zero)
include hk hbefore

theorem outs_eq_before {j : Nat} (hj : j < k) : outs.getD j Block.zero = outs'.getD j Block.zero := by
  rw [outs_eq_iff he hd hlen h h' (hj.trans hk), hbefore j hj, Block.xor_right_inj]
  induction j with
  | zero => rfl
  | succ j ih =>
    have hj' : j < k := by omega
    rw [chainAt_succ, chainAt_succ, outs_eq_iff he hd hlen h h' (hj'.trans hk), hbefore j hj', ih hj']

variable (hne : ins.getD k Block.zero ≠ ins'.getD k Block.zero)
include hne

theorem outs_ne_at : outs.getD k Block.zero ≠ outs'.getD k Block.zero := by
  have hchain : chainAt c0 outs k = chainAt c0 outs' k := by
    cases k with
    | zero => rfl
    | succ j => exact outs_eq_before he hd hlen h h' hk hbefore j.lt_succ_self
  rwa [Ne, outs_eq_iff he hd hlen h h' hk, hchain, Block.xor_left_inj]

/-- From the first difference on, different chaining values keep blocks of equal plaintexts apart. -/
theorem outs_ne_after {j : Nat} (hkj : k ≤ j) (hj : j < ins.length)
    (hafter : ∀ m, k < m → m ≤ j → ins.getD m Block.zero = ins'.getD m Block.zero) :
    outs.getD j Block.zero ≠ outs'.getD j Block.zero := by
  induction j, hkj using Nat.le_induction with
  | base => exact outs_ne_at he hd hlen h h' hk hbefore hne
  | succ j hkj ih =>
    rw [Ne, outs_eq_iff he hd hlen h h' hj, hafter (j + 1) (by omega) le_rfl, Block.xor_right_inj, chainAt_succ,
      chainAt_succ]
    exact ih (by omega) fun m hm hmj => hafter m hm (by omega)

end

/-- Settles O52: before, at and after the first difference. -/
theorem ciphertextsDiverge : Obligations.CiphertextsDiverge :=
  fun _ _ _ he hd _ _ _ _ _ _ hlen h h' hk hbefore hne =>
    ⟨fun _ hj => outs_eq_before he hd hlen h h' hk hbefore hj, outs_ne_at he hd hlen h h' hk hbefore hne,
      fun _ hkj hj hafter => outs_ne_after he hd hlen h h' hk hbefore hne hkj.le hj hafter⟩

/-! ### Streams that meet again -/

@[simp] theorem Block.xor_self (b : Block) : Block.xor b b = Block.zero := by
  simp [Block.xor, Block.zero]

/-- A stream whose second block is its own first ciphertext block. -/
def meetingStream (s : State) (c a : Block) : List Block :=
  [a, encryptBlock s.ks s.nr.count (Block.xor a c), Block.zero]

section
variable (s : State) (c a : Block)

theorem meetingStream_length : (meetingStream s c a).length = 3 := rfl

theorem getD_meetingStream_zero : (meetingStream s c a).getD 0 Block.zero = a := rfl

theorem getD_meetingStream_two : (meetingStream s c a).getD 2 Block.zero = Block.zero := rfl

variable {s} in
/-- The second block cancels the chaining value, so that nothing of the first block goes on. -/
theorem getD_cbcRun_meetingStream (hd : s.dir = .enc) : (cbcRun s c (meetingStream s c a)).getD 2 Block.zero =
    encryptBlock s.ks s.nr.count (Block.xor Block.zero (encryptBlock s.ks s.nr.count Block.zero)) := by
  simp [meetingStream, cbcRun, cbcOut, cbcNext, hd]

end

/-- The state that `LOAD_KEY` of a zero key leads to from reset. -/
def zeroKeyLoaded : State :=
  complete [] false
    { State.reset with key := keyRegister KeyLength.k128.words (List.replicate 16 0), keyNk := .k128, keyDirty := true }

/-- The encrypting state after `INIT` with `IVP = 0`. -/
def zeroKeyEncrypting : State := initialised zeroKeyLoaded .enc false

/-- The two commands, from reset. -/
theorem zeroKeyEncrypting_reached : exec (.loadKey 0 (List.replicate 16 0)) State.reset = .next zeroKeyLoaded ∧
    exec (.init .enc false []) zeroKeyLoaded = .next zeroKeyEncrypting :=
  ⟨exec_loadKey (nk := .k128) rfl rfl, exec_init_eq _ _ (by decide)⟩

/-- Refutes O53: two streams with the first blocks 0 and 1, each with its first ciphertext block as the second block,
meet there, and the equal third blocks become equal ciphertext blocks. -/
theorem not_ciphertextsDivergeAtEveryEqualBlock : ¬ Obligations.CiphertextsDivergeAtEveryEqualBlock := by
  intro hdiverge
  have hloaded : zeroKeyLoaded.Inv := exec_inv invariantHoldsAtReset zeroKeyEncrypting_reached.1
  refine hdiverge zeroKeyEncrypting _ _ (hloaded.initialised_isExpansion .enc false (by decide)) rfl Block.zero
    (meetingStream zeroKeyEncrypting Block.zero Block.zero)
    (meetingStream zeroKeyEncrypting Block.zero ⟨0, 0, 0, 1⟩)
    _ _ 0 ?_ (cbcRun_equations ..) (cbcRun_equations ..) ?_ nofun ?_ 2 (by decide) ?_ ?_ ?_
  · rw [meetingStream_length, meetingStream_length]
  · rw [meetingStream_length]
    decide
  · rw [getD_meetingStream_zero, getD_meetingStream_zero]
    decide
  · rw [meetingStream_length]
    decide
  · rw [getD_meetingStream_two, getD_meetingStream_two]
  · rw [getD_cbcRun_meetingStream _ _ rfl, getD_cbcRun_meetingStream _ _ rfl]

end Sys2Proof.Machine
end

section
/-! PKCS#7 padding (spec/44_pkcs7.md): how many bytes `Pad` appends and `Unpad` keeps, and the two commands `PAD` and
`UNPAD`. -/

namespace Sys2Proof.Machine

/-! ### `UNPAD` (R196 to R199, R201) -/

/-- Settles O29: the last byte decides between the two outputs, also where there is none. -/
theorem unpadCompletes : Obligations.UnpadCompletes := by
  intro s operand n
  have he := exec_unpad (s := s) (operand := operand)
  rw [unpad_eq_lastByte] at he
  exact ⟨_, he, rfl⟩

/-- R196, R198: the truncated subtraction is the length also of the empty output of an underflow. -/
theorem unpad_length (y : Bytes) : (unpad y).1.length = y.length - (y.getLastD 0).toNat := by
  rw [unpad_eq_lastByte]
  by_cases h : y.length < (y.getLastD 0).toNat
  · rw [if_pos h, List.length_nil, Nat.sub_eq_zero_of_le h.le]
  · rw [if_neg h, List.length_take_of_le (Nat.sub_le _ _)]

theorem unpad_underflow (y : Bytes) : (unpad y).2 = decide (y.length < (y.getLastD 0).toNat) := by
  rw [unpad_eq_lastByte]

/-- Settles O34: `UNPAD` and the decrypting `FINAL` complete, and the length and the last byte are all that the length
and the underflow bit are made of. -/
theorem unpadValidatesNothing : Obligations.UnpadValidatesNothing := by
  refine ⟨fun _ _ => ⟨_, exec_unpad, rfl, rfl⟩, fun y y' hlen hlast => ⟨?_, ?_⟩,
    fun _ _ hs hd hl => ⟨_, exec_final_dec hs hd hl, rfl, rfl⟩⟩
  · rw [unpad_length, unpad_length, hlen, hlast]
  · rw [unpad_underflow, unpad_underflow, hlen, hlast]

/-! ### `PAD` (R195, R200, R202) -/

/-- Settles O28: `PAD` completes in the state it began in, with the padded operand as its output. -/
theorem padCompletes : Obligations.PadCompletes := fun _ _ => ⟨_, exec_pad, rfl⟩

theorem one_le_padCount (n : Nat) : 1 ≤ padCount n := by
  unfold padCount
  omega

theorem padCount_le (n : Nat) : padCount n ≤ 16 := Nat.sub_le _ _

theorem pad_length (x : Bytes) : (pad x).length = x.length + padCount x.length := by
  simp [pad]

/-- R195: the length is a multiple of 16 with one block more than the string has. -/
theorem pad_length_blocks (x : Bytes) : (pad x).length = 16 * (x.length / 16 + 1) := by
  rw [← pad_length_div, Nat.mul_div_cancel' (Nat.dvd_of_mod_eq_zero (pad_length_mod x))]

theorem length_lt_pad_length (x : Bytes) : x.length < (pad x).length := by
  rw [pad_length]
  exact Nat.lt_add_of_pos_right (one_le_padCount _)

theorem pad_length_le (x : Bytes) : (pad x).length ≤ x.length + 16 := by
  rw [pad_length]
  exact Nat.add_le_add_left (padCount_le _) _

/-- Settles O32: the bytes appended are `padCount` many, and the length follows from their number. -/
theorem padAppendsOneToSixteenBytes : Obligations.PadAppendsOneToSixteenBytes := fun x =>
  ⟨⟨padCount x.length, one_le_padCount _, padCount_le _, rfl, rfl⟩,
    pad_length_blocks x, length_lt_pad_length x, pad_length_le x⟩

/-- R197: `Unpad` takes off the tampered bytes 43 02, and `Pad` appends 02 02. -/
theorem pad_unpad_tampered :
    pad (unpad (List.replicate 14 0 ++ [0x43, 0x02])).1 = List.replicate 14 0 ++ [0x02, 0x02] := by
  decide

/-- Settles O33: `Unpad` undoes `Pad`, and a tampered padding is not restored. -/
theorem unpadUndoesPad : Obligations.UnpadUndoesPad := by
  refine ⟨unpad_pad, fun x =>
      ⟨Nat.dvd_of_mod_eq_zero (pad_length_mod x), ?_, length_lt_pad_length x, pad_length_le x⟩,
    List.replicate 14 0 ++ [0x43, 0x02], ?_⟩
  · exact (Nat.zero_le _).trans_lt (length_lt_pad_length x)
  · rw [pad_unpad_tampered]
    decide

end Sys2Proof.Machine
end

section
/-! The errors of a received command (spec/60_exceptions.md R210, R212, R222): the traps on the state, the precedence of
the errors, and the responses to a sequence of transfers. -/

namespace Sys2Proof.Machine

open Laws (EncodedFields.fields)

/-- Settles O31: each error is the first check of its command that fails. -/
theorem commandsTrapOnTheState : Obligations.CommandsTrapOnTheState := by
  refine ⟨fun s dir ivp hk => ?_, fun s operand hv hl => ⟨?_, ?_⟩, fun s operand hs => ?_,
    fun s operand hs hd hl => ?_⟩
  · exact ⟨_, exec_init_nokey rfl hk, raiseError_errored _ _⟩
  · exact ⟨_, exec_encBlock_nokey hl hv, raiseError_errored _ _⟩
  · exact ⟨_, exec_decBlock_nokey hl hv, raiseError_errored _ _⟩
  · have hns := not_streaming_iff.mpr hs
    exact ⟨⟨_, exec_update_state hns, raiseError_errored _ _⟩, ⟨_, exec_final_state hns, raiseError_errored _ _⟩⟩
  · exact ⟨_, exec_final_partial hs hd hl, raiseError_errored _ _⟩

/-- A `STATUS` does not complete: it answers and changes nothing (R155). -/
theorem Effect.opcode_ne_zero {s s' : State} {i : Instr} {out : Bytes} {u : Bool} (h : Effect s i out u s') :
    (EncodedFields.fields i).1 ≠ 0 := by
  cases h <;> exact Nat.succ_ne_zero _

/-- Settles O6: the decoder raises the error of its word, and `exec` the first of the others. -/
theorem errorsFollowThePrecedence : Obligations.ErrorsFollowThePrecedence := by
  intro s rest cmd operand hlen
  obtain ⟨code, hdec, herr⟩ | ⟨i, hdec, -, -⟩ := decode_cases hlen
  · have hrep : reportedError s cmd = some code := by rw [reportedError, herr]
    rw [hrep]
    exact ⟨_, step_of_raises rfl hdec, fun c hc => Option.some.inj hc ▸ raiseError_errored _ _, nofun⟩
  have hstep : step { s with inputs := .command cmd operand :: rest } = exec i { s with inputs := rest } :=
    step_of_command rfl hdec
  have hrep : reportedError { s with inputs := rest } cmd = reportedError s cmd := rfl
  rw [hstep, opcField_of_command hdec, ← hrep]
  obtain ⟨code, herr, he⟩ | ⟨hnone, ⟨rfl, he⟩ | ⟨out, u, s', hf, he⟩⟩ :=
    exec_of_command hdec { s with inputs := rest }
  · rw [herr]
    exact ⟨_, he, fun c hc => Option.some.inj hc ▸ raiseError_errored _ _, nofun⟩
  · rw [hnone]
    exact ⟨_, he, nofun, fun _ => ⟨rfl, rfl⟩⟩
  · obtain ⟨-, -, hsticky⟩ := hf.frame
    rw [hnone]
    refine ⟨_, he, nofun, fun _ => ⟨hsticky, ?_⟩⟩
    rw [if_neg hf.opcode_ne_zero]
    rfl

/-! ### Sequences of inputs (R63, R79, R222) -/

/-- A run goes on from the next state. -/
theorem run_succ_of_step {s t : State} (h : step s = .next t) (n : Nat) :
    Host.Core.run Sys2Proof.core (n + 1) s = Host.Core.run Sys2Proof.core n t := by
  have hcore : Sys2Proof.core.step s = .next t := h
  simp only [Host.Core.run, hcore]

/-- The transfers among the inputs. -/
def transfers (inputs : List HostInput) : List HostInput := inputs.filter (· ≠ .reset)

theorem transfers_reset (rest : List HostInput) : transfers (.reset :: rest) = transfers rest := rfl

theorem transfers_command (cmd : Word) (operand : Bytes) (rest : List HostInput) :
    transfers (.command cmd operand :: rest) = .command cmd operand :: transfers rest := rfl

/-- One input takes one step, which answers it where it is a transfer. -/
theorem step_of_input {s : State} {input : HostInput} {rest : List HostInput} (hin : s.inputs = input :: rest)
    (hlen : ∀ cmd operand, input = .command cmd operand → operand.length = lenField cmd) :
    ∃ t, step s = .next t ∧ t.inputs = rest ∧
      t.responses.length + (transfers rest).length = s.responses.length + (transfers s.inputs).length := by
  cases input with
  | reset =>
    refine ⟨_, step_of_reset hin, rfl, ?_⟩
    rw [hin, transfers_reset]
    rfl
  | command cmd operand =>
    obtain ⟨t, out, ht, hrest, hans⟩ :=
      (everyReceivedCommandGetsOneResponse s rest cmd operand).2 (hlen cmd operand rfl)
    rw [← hin] at ht
    refine ⟨t, ht, hrest, ?_⟩
    rw [hans, hin, transfers_command, List.length_append, List.length_singleton, List.length_cons]
    omega

/-- Settles O43, by induction on the inputs. -/
theorem everyInputSequenceIsAnswered : Obligations.EveryInputSequenceIsAnswered := by
  intro s hlen
  generalize hin : s.inputs = inputs at hlen ⊢
  induction inputs generalizing s with
  | nil => exact ⟨s, rfl, hin, rfl⟩
  | cons input rest ih =>
    obtain ⟨s', hstep, hrest, hcount⟩ :=
      step_of_input hin fun cmd operand h => hlen cmd operand (h ▸ List.mem_cons_self)
    obtain ⟨t, hrun, hdone, hresp⟩ := ih s' hrest fun cmd operand h => hlen cmd operand (List.mem_cons_of_mem _ h)
    refine ⟨t, (run_succ_of_step hstep _).trans hrun, hdone, hresp.trans ?_⟩
    rw [hin] at hcount
    exact hcount

end Sys2Proof.Machine
end

section
/-! Two states under one command (spec/60_exceptions.md R211, R217, R219): a command takes the same branch wherever the
elements its checks read agree, and what it answers and leaves depends on few of the others. -/

namespace Sys2Proof.Machine

variable {s s' t t' : State} {i : Instr} {out out' : Bytes} {u u' : Bool}

/-- A command completes with its effect. -/
theorem exec_of_effect (h : Effect s i out u s') : exec i s = .next (complete out u s') := by
  cases h with
  | loadKey _ _ _ hk h => exact exec_loadKey hk h
  | loadIv _ h => exact exec_loadIv h
  | init _ _ hk => exact exec_init rfl hk
  | update _ h => exact exec_update h
  | finalEnc _ h hd => exact exec_final_enc h hd
  | finalDec _ h hd hl => exact exec_final_dec h hd hl
  | encBlock _ h hv => exact exec_encBlock h hv
  | decBlock _ h hv => exact exec_decBlock h hv
  | pad _ => exact exec_pad
  | unpad _ => exact exec_unpad

/-- The elements that the checks of the commands read agree (R210). -/
structure SameChecks (s t : State) : Prop where
  keyNk : t.keyNk = s.keyNk
  ksValid : t.ksValid = s.ksValid
  state : t.state = s.state
  dir : t.dir = s.dir
  length : t.data.length = s.data.length

theorem SameChecks.streaming_iff (h : SameChecks s t) : streaming t ↔ streaming s := by
  rw [streaming, streaming, h.state]

/-- The one branch that two states with the same checks take. -/
def SameBranch (s t : State) (i : Instr) : Prop :=
  (∃ code, exec i s = .next (raiseError code s) ∧ exec i t = .next (raiseError code t)) ∨
  (i = .status [] ∧ exec i s = .next (respond [] s) ∧ exec i t = .next (respond [] t)) ∨
  (∃ out u s' out' u' t', Effect s i out u s' ∧ Effect t i out' u' t')

theorem SameBranch.raise {code : ErrCode} (hs : exec i s = .next (raiseError code s))
    (ht : exec i t = .next (raiseError code t)) : SameBranch s t i := .inl ⟨code, hs, ht⟩

theorem SameBranch.complete (hs : Effect s i out u s') (ht : Effect t i out' u' t') : SameBranch s t i :=
  .inr (.inr ⟨_, _, _, _, _, _, hs, ht⟩)

/-- Every command takes the branch that its checks choose. -/
theorem SameChecks.sameBranch (h : SameChecks s t) (i : Instr) : SameBranch s t i := by
  have hstream := h.streaming_iff
  obtain ⟨hnk, hks, -, hdir, hdata⟩ := h
  cases i with
  | status operand =>
    by_cases hl : operand.length = 0
    · exact .inr (.inl ⟨congrArg _ (List.eq_nil_of_length_eq_zero hl), exec_status hl, exec_status hl⟩)
    · exact .raise (exec_status_length hl) (exec_status_length hl)
  | loadKey kl operand =>
    cases hk : keyLengthOf kl with
    | none => exact .raise (exec_loadKey_keylen hk) (exec_loadKey_keylen hk)
    | some nk =>
      by_cases hl : operand.length = 16 + 8 * kl.toNat
      · exact .complete (.loadKey kl nk operand hk hl) (.loadKey kl nk operand hk hl)
      · exact .raise (exec_loadKey_length hk hl) (exec_loadKey_length hk hl)
  | loadIv operand =>
    by_cases hl : operand.length = 16
    · exact .complete (.loadIv operand hl) (.loadIv operand hl)
    · exact .raise (exec_loadIv_length hl) (exec_loadIv_length hl)
  | init dir ivp operand =>
    by_cases hl : operand.length = 0
    · obtain rfl := List.eq_nil_of_length_eq_zero hl
      by_cases hk : s.keyNk = .none
      · exact .raise (exec_init_nokey hl hk) (exec_init_nokey hl (hnk.trans hk))
      · exact .complete (.init dir ivp hk) (.init dir ivp (hnk ▸ hk))
    · exact .raise (exec_init_length hl) (exec_init_length hl)
  | update operand =>
    by_cases hs : streaming s
    · exact .complete (.update operand hs) (.update operand (hstream.mpr hs))
    · exact .raise (exec_update_state hs) (exec_update_state (mt hstream.mp hs))
  | final operand =>
    by_cases hs : streaming s
    · have ht := hstream.mpr hs
      cases hd : s.dir with
      | enc => exact .complete (.finalEnc operand hs hd) (.finalEnc operand ht (hdir.trans hd))
      | dec =>
        have hd' := hdir.trans hd
        by_cases hl : (s.data.length + operand.length) % 16 = 0
        · exact .complete (.finalDec operand hs hd hl) (.finalDec operand ht hd' (hdata ▸ hl))
        · exact .raise (exec_final_partial hs hd hl) (exec_final_partial ht hd' (hdata ▸ hl))
    · exact .raise (exec_final_state hs) (exec_final_state (mt hstream.mp hs))
  | encBlock operand =>
    by_cases hl : operand.length = 16
    · cases hv : s.ksValid with
      | true => exact .complete (.encBlock operand hl hv) (.encBlock operand hl (hks.trans hv))
      | false => exact .raise (exec_encBlock_nokey hl hv) (exec_encBlock_nokey hl (hks.trans hv))
    · exact .raise (exec_encBlock_length hl) (exec_encBlock_length hl)
  | decBlock operand =>
    by_cases hl : operand.length = 16
    · cases hv : s.ksValid with
      | true => exact .complete (.decBlock operand hl hv) (.decBlock operand hl (hks.trans hv))
      | false => exact .raise (exec_decBlock_nokey hl hv) (exec_decBlock_nokey hl (hks.trans hv))
    · exact .raise (exec_decBlock_length hl) (exec_decBlock_length hl)
  | pad operand => exact .complete (.pad operand) (.pad operand)
  | unpad operand => exact .complete (.unpad operand) (.unpad operand)

/-! ### After an error (R211, R217) -/

/-- `s` with the elements an error writes and the responses replaced. -/
def withResult (err : ErrCode) (sticky ufl : Bool) (responses : List Response) (s : State) : State :=
  { s with err := err, sticky := sticky, ufl := ufl, responses := responses }

section
variable (err : ErrCode) (sticky ufl : Bool) (responses : List Response)

theorem expandIfNeeded_withResult (s : State) : expandIfNeeded (withResult err sticky ufl responses s) =
    withResult err sticky ufl responses (expandIfNeeded s) := by
  rw [expandIfNeeded, expandIfNeeded, apply_ite (withResult err sticky ufl responses)]
  rfl

theorem cbcRun_withResult (s : State) (c : Block) (bs : List Block) :
    cbcRun (withResult err sticky ufl responses s) c bs = cbcRun s c bs :=
  cbcRun_congr (s := s) (t := withResult err sticky ufl responses s) rfl rfl rfl rfl c bs

theorem outOfBlocks_withResult (s : State) (d : Bytes) (n : Nat) :
    outOfBlocks (withResult err sticky ufl responses s) d n = outOfBlocks s d n :=
  congrArg blockBytes (cbcRun_withResult ..)

theorem afterBlocks_withResult (s : State) (d : Bytes) (n : Nat) :
    afterBlocks (withResult err sticky ufl responses s) d n =
      withResult err sticky ufl responses (afterBlocks s d n) := by
  rw [afterBlocks, cbcRun_withResult]
  rfl

/-- No command that completes reads the result of the one before. -/
theorem Effect.with_result (h : Effect s i out u s') :
    Effect (withResult err sticky ufl responses s) i out u (withResult err sticky ufl responses s') := by
  cases h with
  | loadKey kl nk operand hk h => exact .loadKey kl nk operand hk h
  | loadIv operand h => exact .loadIv operand h
  | init dir ivp hk =>
    have he := Effect.init (s := withResult err sticky ufl responses s) dir ivp hk
    rwa [expandIfNeeded_withResult] at he
  | update operand h =>
    have he := Effect.update (s := withResult err sticky ufl responses s) operand h
    rwa [outOfBlocks_withResult, afterBlocks_withResult] at he
  | finalEnc operand h hd =>
    have he := Effect.finalEnc (s := withResult err sticky ufl responses s) operand h hd
    rwa [outOfBlocks_withResult, afterBlocks_withResult] at he
  | finalDec operand h hd hl =>
    have he := Effect.finalDec (s := withResult err sticky ufl responses s) operand h hd hl
    rwa [outOfBlocks_withResult, afterBlocks_withResult] at he
  | encBlock operand h hv => exact .encBlock operand h hv
  | decBlock operand h hv => exact .decBlock operand h hv
  | pad operand => exact .pad operand
  | unpad operand => exact .unpad operand

end

/-- Settles O45: after an error a command takes the same branch, and completes with the same effect. -/
theorem errorsDoNotDisturbTheNextCommand : Obligations.ErrorsDoNotDisturbTheNextCommand := by
  intro i s e t t' code herr hi ht ht'
  obtain rfl := (errored_iff code s e).mp herr
  obtain ⟨c, hs, he⟩ | ⟨rfl, -, -⟩ | ⟨out, u, s', -, -, -, hs, -⟩ :=
    SameChecks.sameBranch (s := s) (t := raiseError code s) ⟨rfl, rfl, rfl, rfl, rfl⟩ i
  · cases ht.symm.trans hs
    cases ht'.symm.trans he
    exact ⟨rfl, [], rfl, rfl⟩
  · exact absurd rfl hi
  · have he := exec_of_effect (hs.with_result code true false (raiseError code s).responses)
    obtain ⟨-, hresp, -⟩ := hs.frame
    cases ht.symm.trans (exec_of_effect hs)
    cases ht'.symm.trans he
    exact ⟨rfl, out, congrArg (· ++ [_]) hresp, rfl⟩

/-! ### What a response shows (R219) -/

/-- The elements that the status word shows agree (R38). -/
structure SameStatus (s t : State) : Prop extends SameChecks s t where
  keyDirty : t.keyDirty = s.keyDirty
  err : t.err = s.err
  sticky : t.sticky = s.sticky
  ufl : t.ufl = s.ufl

theorem SameStatus.statusWord_eq (h : SameStatus s t) : statusWord t = statusWord s := by
  simp only [statusWord, h.keyNk, h.ksValid, h.state, h.dir, h.length, h.keyDirty, h.err, h.sticky, h.ufl]

theorem SameStatus.raiseError (h : SameStatus s t) (code : ErrCode) :
    SameStatus (raiseError code s) (raiseError code t) where
  toSameChecks := ⟨h.keyNk, h.ksValid, h.state, h.dir, h.length⟩
  keyDirty := h.keyDirty
  err := rfl
  sticky := rfl
  ufl := rfl

theorem SameStatus.complete (h : SameStatus s t) (out out' : Bytes) (u : Bool) :
    SameStatus (complete out u s) (complete out' u t) where
  toSameChecks := ⟨h.keyNk, h.ksValid, h.state, h.dir, h.length⟩
  keyDirty := h.keyDirty
  err := rfl
  sticky := h.sticky
  ufl := rfl

/-- The elements that the processing of blocks reads agree (R130, R131, R150). -/
structure SameStream (s t : State) : Prop where
  ks : t.ks = s.ks
  iks : t.iks = s.iks
  nr : t.nr = s.nr
  chain : t.chain = s.chain
  data : t.data = s.data

/-- The mnemonics of the commands that process no block. -/
def processesNoBlock : List String := ["STATUS", "LOAD_KEY", "LOAD_IV", "INIT", "PAD", "UNPAD"]

theorem outOfBlocks_congr (hd : t.dir = s.dir) (hb : SameStream s t) (d : Bytes) (n : Nat) :
    outOfBlocks t d n = outOfBlocks s d n := by
  rw [outOfBlocks, outOfBlocks, hb.chain, cbcRun_congr hd hb.ks hb.iks hb.nr]

theorem SameStatus.afterBlocks (h : SameStatus s t) (d : Bytes) (n : Nat) (state : CipherState) :
    SameStatus { afterBlocks s d n with state := state } { afterBlocks t d n with state := state } where
  toSameChecks := ⟨h.keyNk, h.ksValid, rfl, h.dir, rfl⟩
  keyDirty := h.keyDirty
  err := h.err
  sticky := h.sticky
  ufl := h.ufl

/-- One command in two states with the same status has the same output and leaves the same status, if it processes no
block or both states hold the same schedule and stream. -/
theorem SameStatus.effect (h : SameStatus s t) (hb : i.mnemonic ∈ processesNoBlock ∨ SameStream s t)
    (hs : Effect s i out u s') (ht : Effect t i out' u' t') : out' = out ∧ u' = u ∧ SameStatus s' t' := by
  have hblocks (hi : i.mnemonic ∉ processesNoBlock) : SameStream s t := hb.resolve_left hi
  cases hs with
  | loadKey kl nk operand hk hl =>
    cases ht with
    | loadKey _ nk' _ hk' _ =>
      obtain rfl := Option.some.inj (hk.symm.trans hk')
      exact ⟨rfl, rfl, ⟨rfl, h.ksValid, h.state, h.dir, h.length⟩, rfl, h.err, h.sticky, h.ufl⟩
  | loadIv operand hl =>
    cases ht
    exact ⟨rfl, rfl, ⟨h.keyNk, h.ksValid, h.state, h.dir, h.length⟩, h.keyDirty, h.err, h.sticky, h.ufl⟩
  | init dir ivp hk =>
    cases ht
    refine ⟨rfl, rfl, ⟨?_, ?_, rfl, rfl, rfl⟩, ?_, ?_, ?_, ?_⟩ <;>
      simp [h.keyNk, h.err, h.sticky, h.ufl]
  | update operand hst =>
    cases ht
    have hb := hblocks (show "UPDATE" ∉ processesNoBlock by decide)
    rw [hb.data, h.dir]
    exact ⟨outOfBlocks_congr h.dir hb _ _, rfl, h.afterBlocks ..⟩
  | finalEnc operand hst hd =>
    have hb := hblocks (show "FINAL" ∉ processesNoBlock by decide)
    cases ht with
    | finalEnc _ _ _ =>
      rw [hb.data]
      exact ⟨outOfBlocks_congr h.dir hb _ _, rfl, h.afterBlocks ..⟩
    | finalDec _ _ hd' _ => cases hd.symm.trans (h.dir.symm.trans hd')
  | finalDec operand hst hd hl =>
    have hb := hblocks (show "FINAL" ∉ processesNoBlock by decide)
    cases ht with
    | finalEnc _ _ hd' => cases hd.symm.trans (h.dir.symm.trans hd')
    | finalDec _ _ _ _ =>
      rw [hb.data, outOfBlocks_congr h.dir hb]
      exact ⟨rfl, rfl, h.afterBlocks ..⟩
  | encBlock operand hl hv =>
    cases ht
    have hb := hblocks (show "ENC_BLOCK" ∉ processesNoBlock by decide)
    rw [hb.ks, hb.nr]
    exact ⟨rfl, rfl, h⟩
  | decBlock operand hl hv =>
    cases ht
    have hb := hblocks (show "DEC_BLOCK" ∉ processesNoBlock by decide)
    rw [hb.iks, hb.nr]
    exact ⟨rfl, rfl, h⟩
  | pad operand =>
    cases ht
    exact ⟨rfl, rfl, h⟩
  | unpad operand =>
    cases ht
    exact ⟨rfl, rfl, h⟩

/-- So a response depends on the status and, for a command that processes blocks, on the schedule and the stream. -/
theorem SameStatus.exec_responses (h : SameStatus s t) (hb : i.mnemonic ∈ processesNoBlock ∨ SameStream s t)
    (hr : t.responses = s.responses) (hs : exec i s = .next s') (ht : exec i t = .next t') :
    s'.responses = t'.responses := by
  obtain ⟨code, hs', ht'⟩ | ⟨-, hs', ht'⟩ | ⟨out, u, s1, out', u', t1, hes, het⟩ := h.sameBranch i
  · cases hs.symm.trans hs'
    cases ht.symm.trans ht'
    rw [raiseError_responses, raiseError_responses, (h.raiseError code).statusWord_eq, hr]
  · cases hs.symm.trans hs'
    cases ht.symm.trans ht'
    rw [respond_responses, respond_responses, h.statusWord_eq, hr]
  · cases hs.symm.trans (exec_of_effect hes)
    cases ht.symm.trans (exec_of_effect het)
    obtain ⟨-, hrs, -⟩ := hes.frame
    obtain ⟨-, hrt, -⟩ := het.frame
    obtain ⟨rfl, rfl, h1⟩ := h.effect hb hes het
    rw [complete_responses, complete_responses, (h1.complete _ _ _).statusWord_eq, hrs, hrt, hr]

/-- Settles O44: `KEY` and `IV` are no part of the status, the schedule or the stream, and none of the elements that
vary in the second clause is part of the status. -/
theorem responsesDoNotRevealKeyOrIv : Obligations.ResponsesDoNotRevealKeyOrIv := by
  refine ⟨fun i s t t' key iv ht ht' => ?_, fun i s t t' key ks iks iv chain data hi hl ht ht' => ?_⟩
  · have h : SameStatus s { s with key := key, iv := iv } := ⟨⟨rfl, rfl, rfl, rfl, rfl⟩, rfl, rfl, rfl, rfl⟩
    exact h.exec_responses (.inr ⟨rfl, rfl, rfl, rfl, rfl⟩) rfl ht ht'
  · have h : SameStatus s { s with key := key, ks := ks, iks := iks, iv := iv, chain := chain, data := data } :=
      ⟨⟨rfl, rfl, rfl, rfl, hl⟩, rfl, rfl, rfl, rfl⟩
    exact h.exec_responses (.inl hi) rfl ht ht'

end Sys2Proof.Machine
end

section
/-! The reset event and the hazards of a load (spec/70_reset_and_hazards.md R240, R243, R244): the commands that process
blocks read neither the key and the IV of a load nor the result of the command before. -/

namespace Sys2Proof.Machine

variable {s s' t v w : State} {i : Instr} {out : Bytes} {u : Bool}

/-- Settles O2: the reset event is received and `hardReset` is the reset state but for the two streams. -/
theorem resetEventResetsEveryElement : Obligations.ResetEventResetsEveryElement :=
  fun _ _ => step_of_reset rfl

/-! ### Commands under a schedule and a stream (R130, R131, R153, R154) -/

/-- The mnemonics of the commands that process blocks. -/
def processesBlocks : List String := ["UPDATE", "FINAL", "ENC_BLOCK", "DEC_BLOCK"]

theorem processesBlocks_cases (hi : i.mnemonic ∈ processesBlocks) :
    ∃ operand, i = .update operand ∨ i = .final operand ∨ i = .encBlock operand ∨ i = .decBlock operand := by
  cases i <;> simp_all [processesBlocks, Instr.mnemonic]

/-- `s` with the elements of `r` that the loads write: `KEY`, `KEY_NK`, `KEY_DIRTY`, `IV`, and the result and responses
of a command. -/
def withLoaded (r s : State) : State :=
  { s with key := r.key, keyNk := r.keyNk, keyDirty := r.keyDirty, iv := r.iv, err := r.err, ufl := r.ufl,
           responses := r.responses }

section
variable (r : State)

theorem cbcRun_withLoaded (s : State) (c : Block) (bs : List Block) :
    cbcRun (withLoaded r s) c bs = cbcRun s c bs :=
  cbcRun_congr (s := s) (t := withLoaded r s) rfl rfl rfl rfl c bs

theorem outOfBlocks_withLoaded (s : State) (d : Bytes) (n : Nat) :
    outOfBlocks (withLoaded r s) d n = outOfBlocks s d n :=
  congrArg blockBytes (cbcRun_withLoaded ..)

theorem afterBlocks_withLoaded (s : State) (d : Bytes) (n : Nat) :
    afterBlocks (withLoaded r s) d n = withLoaded r (afterBlocks s d n) := by
  rw [afterBlocks, cbcRun_withLoaded]
  rfl

/-- A command that processes blocks has the same effect whatever has been loaded. -/
theorem Effect.withLoaded (h : Effect s i out u s') (hi : i.mnemonic ∈ processesBlocks) :
    Effect (withLoaded r s) i out u (withLoaded r s') := by
  obtain ⟨operand, rfl | rfl | rfl | rfl⟩ := processesBlocks_cases hi
  · cases h with
    | update _ h =>
      have he := Effect.update (s := Machine.withLoaded r s) operand h
      rwa [outOfBlocks_withLoaded, afterBlocks_withLoaded] at he
  · cases h with
    | finalEnc _ h hd =>
      have he := Effect.finalEnc (s := Machine.withLoaded r s) operand h hd
      rwa [outOfBlocks_withLoaded, afterBlocks_withLoaded] at he
    | finalDec _ h hd hl =>
      have he := Effect.finalDec (s := Machine.withLoaded r s) operand h hd hl
      rwa [outOfBlocks_withLoaded, afterBlocks_withLoaded] at he
  · cases h with
    | encBlock _ h hv => exact .encBlock operand h hv
  · cases h with
    | decBlock _ h hv => exact .decBlock operand h hv

/-- A command that processes blocks raises the same error whatever has been loaded, or else completes. -/
theorem exec_withLoaded_cases (s : State) (hi : i.mnemonic ∈ processesBlocks) :
    (∃ code, exec i s = .next (raiseError code s) ∧
      exec i (withLoaded r s) = .next (raiseError code (withLoaded r s))) ∨
    ∃ out u s', Effect s i out u s' := by
  obtain ⟨operand, rfl | rfl | rfl | rfl⟩ := processesBlocks_cases hi
  · by_cases hs : streaming s
    · exact .inr ⟨_, _, _, .update operand hs⟩
    · exact .inl ⟨_, exec_update_state hs, exec_update_state hs⟩
  · by_cases hs : streaming s
    · cases hd : s.dir with
      | enc => exact .inr ⟨_, _, _, .finalEnc operand hs hd⟩
      | dec =>
        by_cases hl : (s.data.length + operand.length) % 16 = 0
        · exact .inr ⟨_, _, _, .finalDec operand hs hd hl⟩
        · exact .inl ⟨_, exec_final_partial hs hd hl, exec_final_partial hs hd hl⟩
    · exact .inl ⟨_, exec_final_state hs, exec_final_state hs⟩
  · by_cases hl : operand.length = 16
    · cases hv : s.ksValid with
      | true => exact .inr ⟨_, _, _, .encBlock operand hl hv⟩
      | false => exact .inl ⟨_, exec_encBlock_nokey hl hv, exec_encBlock_nokey hl hv⟩
    · exact .inl ⟨_, exec_encBlock_length hl, exec_encBlock_length hl⟩
  · by_cases hl : operand.length = 16
    · cases hv : s.ksValid with
      | true => exact .inr ⟨_, _, _, .decBlock operand hl hv⟩
      | false => exact .inl ⟨_, exec_decBlock_nokey hl hv, exec_decBlock_nokey hl hv⟩
    · exact .inl ⟨_, exec_decBlock_length hl, exec_decBlock_length hl⟩

end

/-- After loads, a command that processes blocks leaves the state and gives the output it would have given without
them, but for what they loaded and the responses. -/
theorem exec_after_load (hi : i.mnemonic ∈ processesBlocks) (ht : t = withLoaded t s) (hv : exec i s = .next v)
    (hw : exec i t = .next w) :
    w = { v with key := t.key, keyNk := t.keyNk, keyDirty := t.keyDirty, iv := t.iv, responses := w.responses } ∧
      ∃ out, Answers out s v ∧ Answers out t w := by
  rw [ht] at hw
  obtain ⟨code, hs, hl⟩ | ⟨out, u, s', he⟩ := exec_withLoaded_cases t s hi
  · cases hv.symm.trans hs
    cases hw.symm.trans hl
    exact ⟨rfl, [], rfl, rfl⟩
  · cases hv.symm.trans (exec_of_effect he)
    cases hw.symm.trans (exec_of_effect (he.withLoaded t hi))
    obtain ⟨-, hresp, -⟩ := he.frame
    exact ⟨rfl, out, congrArg (· ++ [_]) hresp, rfl⟩

/-! ### The loads (R129, R184) -/

/-- A command without an error that is no `STATUS` has completed with its effect. -/
theorem exec_ok_effect (h : exec i s = .next t) (hok : t.err = .ok) (hi : i.mnemonic ≠ "STATUS") :
    ∃ out u s', Effect s i out u s' ∧ t = complete out u s' := by
  obtain ⟨code, hc, rfl⟩ | ⟨rfl, -⟩ | he := exec_next_cases h
  · exact absurd hok hc
  · exact absurd rfl hi
  · exact he

theorem exec_loadKey_ok {kl : BitVec 2} {operand : Bytes} (h : exec (.loadKey kl operand) s = .next t)
    (hok : t.err = .ok) : t = withLoaded t s ∧ t.keyDirty = true ∧ t.iv = s.iv := by
  obtain ⟨out, u, s', he, rfl⟩ := exec_ok_effect h hok (by simp [Instr.mnemonic])
  cases he
  exact ⟨rfl, rfl, rfl⟩

theorem exec_loadIv_ok {operand : Bytes} (h : exec (.loadIv operand) s = .next t) (hok : t.err = .ok) :
    t = withLoaded t s ∧ t.iv = packBlock operand ∧ t.key = s.key ∧ t.keyNk = s.keyNk ∧ t.keyDirty = s.keyDirty := by
  obtain ⟨out, u, s', he, rfl⟩ := exec_ok_effect h hok (by simp [Instr.mnemonic])
  cases he
  exact ⟨rfl, rfl, rfl, rfl, rfl⟩

/-- R183: `INIT` with `IVP = 1` chains from `IV`. -/
theorem exec_init_ivp_chain {dir : Direction} (h : exec (.init dir true []) s = .next t) (hok : t.err = .ok) :
    t.chain = s.iv := by
  obtain ⟨out, u, s', he, rfl⟩ := exec_ok_effect h hok (by simp [Instr.mnemonic])
  cases he
  rfl

/-- Settles O54: `LOAD_KEY` loads nothing that these commands read, and they keep `IV`. -/
theorem loadKeyTakesEffectAtInit : Obligations.LoadKeyTakesEffectAtInit := by
  intro i s t v w kl operand hi ht hok hv hw
  obtain ⟨hload, hdirty, hivt⟩ := exec_loadKey_ok ht hok
  obtain ⟨heq, hout⟩ := exec_after_load hi hload hv hw
  have hiv : v.iv = t.iv := by
    obtain ⟨-, -, -, hiv, -⟩ := elementsHaveTheirWriters i s v hv
    exact (hiv fun h => by simp [h] at hi).trans hivt.symm
  rw [hdirty, ← hiv] at heq
  exact ⟨heq, hout⟩

/-- Settles O55: `LOAD_IV` loads nothing that the stream commands read, they keep the key elements, and `INIT` takes the
loaded `IV`. -/
theorem loadIvTakesEffectAtInit : Obligations.LoadIvTakesEffectAtInit := by
  intro s t operand ht hok
  obtain ⟨hload, hiv, hkey, hnk, hdirty⟩ := exec_loadIv_ok ht hok
  refine ⟨fun i v w hi hv hw => ?_, fun dir v hv hvok => (exec_init_ivp_chain hv hvok).trans hiv⟩
  have hmem : i.mnemonic ∈ processesBlocks := by
    obtain h | h := hi <;> simp [h, processesBlocks]
  obtain ⟨heq, hout⟩ := exec_after_load hmem hload hv hw
  obtain ⟨hkeep, hkeepDirty, -⟩ := elementsHaveTheirWriters i s v hv
  have hnoKey : i.mnemonic ≠ "LOAD_KEY" := fun h => by simp [h] at hi
  have hnoInit : i.mnemonic ≠ "INIT" := fun h => by simp [h] at hi
  obtain ⟨hvkey, hvnk⟩ := hkeep hnoKey
  rw [hkey, hnk, hdirty, ← hvkey, ← hvnk, ← hkeepDirty hnoKey hnoInit] at heq
  exact ⟨heq, hout⟩

end Sys2Proof.Machine
end
